-- ==== Sys2Proof/Word.lean ====
section
/-! DEFINITION. The word types of the block: bus words, data registers and window offsets. -/

namespace Sys2Proof

/-- A bus word (spec/20_memory.md R62): 32 bits. -/
abbrev Word32 := BitVec 32

/-- A data register (spec/00_scope.md R6, R7): 256 bits, unsigned. -/
abbrev Word256 := BitVec 256

/-- A byte offset in the 4 KiB register window (spec/20_memory.md R60). -/
abbrev Offset := BitVec 12

end Sys2Proof
end

