-- ==== Sys2Proof/Config.lean ====
section
/-! DEFINITION. The free values: what the spec leaves to the implementation and no rule constrains.
The constants of the domain ROM are fixed by the spec and stand in Machine/Rom.lean; the open platform
parameters BASE_ADDR and NUM_INSTANCES are arguments of Machine/Platform.lean. -/

namespace Sys2Proof

/-- The value a failing command leaves in a 256-bit output register, one for each draw
(spec/10_state.md R47: "a draw"; the model "must treat the drawn values as unconstrained").
Nothing is known of it. Log entries 5 and 21. -/
opaque Config.freeWord : Nat → Word256

/-- The value a failing command leaves in RFLAGS.RINF, one for each draw (spec/10_state.md R34, R47).
Nothing is known of it. Log entries 5 and 21. -/
opaque Config.freeFlag : Nat → Bool

end Sys2Proof
end

