-- ==== Sys2Proof/Syntax.lean ====
section
/-! DEFINITION. The command set: one constructor per row of spec/opcode_table.json, the fields of a command
word, and the names of the register map. -/

namespace Sys2Proof

/-- The twelve commands (spec/30_encoding.md R84). The command word holds no operand (R82), so no
constructor has one. -/
inductive Instr where
  /-- INV.P, word 0x00000001: modular inverse mod p (spec/40_field_arithmetic.md R104). -/
  | invP
  /-- INV.N, word 0x00000011: modular inverse mod n (R104). -/
  | invN
  /-- EXP.P, word 0x00000002: modular exponentiation mod p (R105). -/
  | expP
  /-- EXP.N, word 0x00000012: modular exponentiation mod n (R105). -/
  | expN
  /-- PADD, word 0x00000003: point addition (spec/41_point_ops.md R127). -/
  | padd
  /-- PDBL, word 0x00000004: point doubling (R128). -/
  | pdbl
  /-- SMUL, word 0x00000005: scalar multiplication (spec/42_scalar_multiplier.md R142). -/
  | smul
  /-- GENPRIV, word 0x00000006: private key generation (spec/43_key_pair_gen.md R152). -/
  | genpriv
  /-- DERIVE, word 0x00000007: public key derivation (R153). -/
  | derive
  /-- KEYPAIR, word 0x00000008: key pair generation (R154). -/
  | keypair
  /-- SIGN, word 0x00000009: ECDSA signing (spec/44_ecdsa_signer.md R162). -/
  | sign
  /-- VERIFY, word 0x0000000A: ECDSA verification (spec/45_ecdsa_verifier.md R171). -/
  | verify
deriving DecidableEq, Repr

/-- The ten operations an opcode selects (spec/30_encoding.md R84); for INV and EXP the modulus is chosen by
MSEL, which the snapshot holds (spec/10_state.md R42, R50). -/
inductive Op where
  | inv | exp | padd | pdbl | smul | genpriv | derive | keypair | sign | verify
deriving DecidableEq, Repr

/-- The fields of a command word (spec/30_encoding.md R80). -/
structure CmdFields where
  /-- bits 3:0 -/
  opc  : BitVec 4
  /-- bit 4 -/
  msel : Bool
  /-- bits 31:5 -/
  rsv  : BitVec 27
deriving DecidableEq, Repr

/-- Why a command word is illegal (spec/30_encoding.md R85, R86). All three behave identically. -/
inductive Illegal where
  /-- a reserved bit of 31:5 is set -/
  | rsvNonzero
  /-- OPC is 0x0 or 0xB to 0xF -/
  | opcUnassigned
  /-- MSEL = 1 with an OPC other than 0x1 or 0x2 -/
  | mselNotAllowed
deriving DecidableEq, Repr

/-- What the decoder reads in a word. -/
inductive Decoded where
  | instr (i : Instr)
  | illegal (why : Illegal)
deriving DecidableEq, Repr

/-- The 256-bit registers and ROM constants of the register map (spec/20_memory.md R61). -/
inductive WideReg where
  | opa | opb | opc | p1x | p1y | p2x | p2y
  | res0 | res1 | rx | ry
  | dpP | dpN | dpGx | dpGy | dpA | dpB | dpH
deriving DecidableEq, Repr

/-- What a mapped, aligned offset names (spec/20_memory.md R61): one of the six 32-bit registers, or word
`i` of a 256-bit one. -/
inductive RegSel where
  | id | ctrl | cmd | status | pflags | rflags
  | word (r : WideReg) (i : Nat)
deriving DecidableEq, Repr

/-- The registers a command can write (spec/30_encoding.md R82, the column OutRegs). -/
inductive OutReg where
  | res0 | res1 | rx | ry | rinf | vok
deriving DecidableEq, Repr

end Sys2Proof
end

