-- ==== Sys2Proof/WellFormed.lean ====
section
/-! DEFINITION. The checks on a command's fields (spec/30_encoding.md R85). A command has no operands, so
these are the only static checks; every constructor of Instr passes them (Laws/PerInstr.lean). -/

namespace Sys2Proof

/-- The reserved bits 31:5 are zero. -/
def CmdFields.rsvZero (f : CmdFields) : Bool := f.rsv == 0

/-- The opcode is one of 0x1 to 0xA. -/
def CmdFields.opcAssigned (f : CmdFields) : Bool :=
  decide (1 ≤ f.opc.toNat) && decide (f.opc.toNat ≤ 0xA)

/-- MSEL is set only for INV (0x1) and EXP (0x2). -/
def CmdFields.mselAllowed (f : CmdFields) : Bool :=
  !f.msel || f.opc == 0x1 || f.opc == 0x2

/-- The spec's Legal (spec/30_encoding.md R85), on the fields of the word. -/
def CmdFields.legal (f : CmdFields) : Bool := f.rsvZero && f.opcAssigned && f.mselAllowed

end Sys2Proof
end

