-- ==== Sys2Proof/Decode.lean ====
section
/-! DEFINITION. Decoding a command word, total on all 2^32 words, and the encoder
(spec/30_encoding.md R80, R84 to R86). -/

namespace Sys2Proof

/-- The fields of a word: OPC = v[3:0], MSEL = v[4], RSV = v[31:5] (spec/30_encoding.md R80). -/
def fieldsOf (v : Word32) : CmdFields :=
  { opc := v.extractLsb' 0 4, msel := v.getLsbD 4, rsv := v.extractLsb' 5 27 }

/-- The word with these fields, most significant field first (spec/30_encoding.md R80). -/
def CmdFields.word (f : CmdFields) : Word32 := f.rsv ++ BitVec.ofBool f.msel ++ f.opc

/-- The spec's Legal(v) (spec/30_encoding.md R85). -/
def legalWord (v : Word32) : Bool := (fieldsOf v).legal

/-- The opcode map (spec/30_encoding.md R84) on OPC and MSEL, the reserved bits apart. -/
def opcodeMap (opc : Nat) (msel : Bool) : Decoded :=
  match opc, msel with
  | 0x1, false => .instr .invP
  | 0x1, true  => .instr .invN
  | 0x2, false => .instr .expP
  | 0x2, true  => .instr .expN
  | 0x3, false => .instr .padd
  | 0x4, false => .instr .pdbl
  | 0x5, false => .instr .smul
  | 0x6, false => .instr .genpriv
  | 0x7, false => .instr .derive
  | 0x8, false => .instr .keypair
  | 0x9, false => .instr .sign
  | 0xA, false => .instr .verify
  | o, _ => if 1 ≤ o ∧ o ≤ 0xA then .illegal .mselNotAllowed else .illegal .opcUnassigned

/-- The decoder of a word written to CMD. A word with a reserved bit set, an unassigned opcode or a
forbidden MSEL is rejected by name (spec/30_encoding.md R86). -/
def decode (v : Word32) : Decoded :=
  if (fieldsOf v).rsvZero then opcodeMap (fieldsOf v).opc.toNat (fieldsOf v).msel
  else .illegal .rsvNonzero

/-- OPC and MSEL of each command (spec/30_encoding.md R84). -/
def Instr.fields : Instr → CmdFields
  | .invP    => { opc := 0x1, msel := false, rsv := 0 }
  | .invN    => { opc := 0x1, msel := true,  rsv := 0 }
  | .expP    => { opc := 0x2, msel := false, rsv := 0 }
  | .expN    => { opc := 0x2, msel := true,  rsv := 0 }
  | .padd    => { opc := 0x3, msel := false, rsv := 0 }
  | .pdbl    => { opc := 0x4, msel := false, rsv := 0 }
  | .smul    => { opc := 0x5, msel := false, rsv := 0 }
  | .genpriv => { opc := 0x6, msel := false, rsv := 0 }
  | .derive  => { opc := 0x7, msel := false, rsv := 0 }
  | .keypair => { opc := 0x8, msel := false, rsv := 0 }
  | .sign    => { opc := 0x9, msel := false, rsv := 0 }
  | .verify  => { opc := 0xA, msel := false, rsv := 0 }

/-- A command is well formed when its fields are legal. -/
def Instr.wf (i : Instr) : Bool := i.fields.legal

/-- The word of a command (spec/30_encoding.md R80, R84). -/
def encode (i : Instr) : Word32 := i.fields.word

/-- The operation the opcode of a command selects, op(v) of spec/10_state.md R42. -/
def Instr.op : Instr → Op
  | .invP    => .inv
  | .invN    => .inv
  | .expP    => .exp
  | .expN    => .exp
  | .padd    => .padd
  | .pdbl    => .pdbl
  | .smul    => .smul
  | .genpriv => .genpriv
  | .derive  => .derive
  | .keypair => .keypair
  | .sign    => .sign
  | .verify  => .verify

/-- The command that the operation in SEQ and the snapshot's MSEL make together
(spec/40_field_arithmetic.md R101). Only INV and EXP look at MSEL: the begin steps of the others do not
read it. Log entry 12. -/
def Instr.ofOp : Op → Bool → Instr
  | .inv, false => .invP
  | .inv, true  => .invN
  | .exp, false => .expP
  | .exp, true  => .expN
  | .padd, _    => .padd
  | .pdbl, _    => .pdbl
  | .smul, _    => .smul
  | .genpriv, _ => .genpriv
  | .derive, _  => .derive
  | .keypair, _ => .keypair
  | .sign, _    => .sign
  | .verify, _  => .verify

/-- OutRegs of each command (spec/30_encoding.md R82). -/
def Instr.outRegs : Instr → List OutReg
  | .invP    => [.res0]
  | .invN    => [.res0]
  | .expP    => [.res0]
  | .expN    => [.res0]
  | .padd    => [.rx, .ry, .rinf]
  | .pdbl    => [.rx, .ry, .rinf]
  | .smul    => [.rx, .ry, .rinf]
  | .genpriv => [.res0]
  | .derive  => [.rx, .ry, .rinf]
  | .keypair => [.res0, .rx, .ry, .rinf]
  | .sign    => [.res0, .res1]
  | .verify  => [.vok]

/-- The decoder's answer on a row of the opcode table: bit 0 of `w` is bit 0 of the command word, which is
32 bits long (spec/30_encoding.md R81); a row of more than 32 bits with a bit set above them is no command. -/
def decodeTableWord (nbits w : Nat) : Option Instr :=
  if w % 2 ^ nbits < 2 ^ 32 then
    match decode (BitVec.ofNat 32 (w % 2 ^ nbits)) with
    | .instr i => some i
    | .illegal _ => none
  else none

end Sys2Proof
end

