-- ==== Sys2Proof/Machine/State.lean ====
section
/-! DEFINITION. The state of one block instance (spec/10_state.md R20), the events of its environment, and the
state after reset (spec/10_state.md R54). -/

namespace Sys2Proof.Machine

/-- A point (spec/41_point_ops.md R120): the group identity, or a pair of integers. The identity is a tag,
never a coordinate value (spec/10_state.md R25). -/
inductive Point where
  | inf
  | fin (x y : Nat)
deriving DecidableEq, Repr

/-- The input snapshot of the running command (spec/10_state.md R20, R50). -/
structure Snapshot where
  opa  : Word256
  opb  : Word256
  opc  : Word256
  p1   : Point
  p2   : Point
  msel : Bool
deriving DecidableEq, Repr

/-- What SNAP holds when no command runs. The spec leaves it open ("a model may hold any value",
spec/10_state.md R54) and has it discarded at commit and fail (R46). DESIGN CHOICE, log entry 6. -/
def Snapshot.discarded : Snapshot :=
  { opa := 0, opb := 0, opc := 0, p1 := .inf, p2 := .inf, msel := false }

/-- The fields of STATUS (spec/10_state.md R30); its reserved bits hold nothing and read 0. -/
structure Status where
  busy    : Bool
  done    : Bool
  err     : Bool
  vok     : Bool
  ovr     : Bool
  rngwait : Bool
  errcode : BitVec 4
deriving DecidableEq, Repr

/-- The operation and the working context of WAITRNG(op, ctx) (spec/10_state.md R41, R51): the context is empty
for GENPRIV and KEYPAIR (spec/43_key_pair_gen.md R152, R154) and {z, d} for SIGN (spec/44_ecdsa_signer.md R162).
No other command waits. -/
inductive Waiting where
  | genpriv
  | keypair
  | sign (z d : Word256)
deriving DecidableEq, Repr

/-- The sequencer (spec/10_state.md R41). -/
inductive Seq where
  | idle
  | run (op : Op)
  | waitRng (w : Waiting)
deriving DecidableEq, Repr

/-- The error codes a command can end with (spec/60_exceptions.md R200). -/
inductive ErrCode where
  | pointNotOnCurve
  | invalidInverse
  | operandOutOfRange
  | illegalCommand
deriving DecidableEq, Repr

/-- A bus response (spec/20_memory.md R63 to R65). -/
inductive BusStatus where
  | okay | slverr
deriving DecidableEq, Repr

/-- What the host gets back from its last access: for a read the response and the data, for a write the
response. -/
inductive BusResp where
  | read (st : BusStatus) (data : Word32)
  | write (st : BusStatus)
deriving DecidableEq, Repr

/-- What the block's environment does (spec/70_reset_and_hazards.md R245): offsets are relative to BASE_ADDR
(spec/20_memory.md R60), `width` is the access width in bits (R62). `tick` gives the sequencer its turn
(spec/70_reset_and_hazards.md R244, log entry 2). -/
inductive Event where
  | read (off : Offset) (width : Nat)
  | write (off : Offset) (width : Nat) (v : Word32)
  | deliver (w : Word256)
  | tick
  | reset
deriving DecidableEq, Repr

/-- The state record (spec/10_state.md R20), and after it the model's own fields, which hold the environment. -/
structure State where
  opa  : Word256
  opb  : Word256
  opc  : Word256
  p1x  : Word256
  p1y  : Word256
  p2x  : Word256
  p2y  : Word256
  /-- PFLAGS.P1INF (R32) -/
  p1inf : Bool
  /-- PFLAGS.P2INF (R32) -/
  p2inf : Bool
  res0 : Word256
  res1 : Word256
  rx   : Word256
  ry   : Word256
  /-- RFLAGS.RINF (R33) -/
  rinf : Bool
  /-- CTRL.IE (R28) -/
  ie   : Bool
  /-- CMD_LAST (R29) -/
  cmdLast : Word32
  status  : Status
  seq     : Seq
  snap    : Snapshot
  /-- The model's own: the word on the Deliver wires of the randomness port (spec/60_exceptions.md R213)
  while its attempt step is taken. Log entry 3. -/
  rngIn   : Option Word256
  /-- The model's own: the environment's coming events, first first. Log entry 2. -/
  pending : List Event
  /-- The model's own: the response to the last bus access. Log entry 4. -/
  resp    : Option BusResp
  /-- The model's own: how many free values Fail has drawn. Log entry 5. -/
  draws   : Nat
deriving DecidableEq, Repr

/-- The state after reset (spec/10_state.md R54): every register 0, SEQ IDLE. SNAP is log entry 6; the model's own
fields are log entries 2 to 5. -/
def State.reset : State where
  opa := 0
  opb := 0
  opc := 0
  p1x := 0
  p1y := 0
  p2x := 0
  p2y := 0
  p1inf := false
  p2inf := false
  res0 := 0
  res1 := 0
  rx := 0
  ry := 0
  rinf := false
  ie := false
  cmdLast := 0
  status := { busy := false, done := false, err := false, vok := false, ovr := false, rngwait := false,
              errcode := 0 }
  seq := .idle
  snap := .discarded
  rngIn := none
  pending := []
  resp := none
  draws := 0

/-- The reasons a step can stop with a fault: none. A command error is an error completion, a next state
(spec/60_exceptions.md R208), and a bus error is a response with no state change (R203). -/
inductive Fault where
deriving DecidableEq, Repr

/-- The reasons a step can be refused. -/
inductive Refusal where
  /-- Raised by an arm of `exec` that has no meaning yet; no arm is one. Safe: the machine stops. -/
  | notModelled (mnemonic : String)
deriving DecidableEq, Repr

end Sys2Proof.Machine
end

