-- ==== Sys2Proof/Machine/Rom.lean ====
section
/-! DEFINITION. The constants of the block: the ID register and the domain parameter ROM
(spec/10_state.md R27, R35 to R39). They are not state and reset does not change them. -/

namespace Sys2Proof.Machine

/-- ID (R27): ASCII "ECDS". -/
def idValue : Word32 := 0x45434453

/-- p, the field prime (R36). It is prime and n < p < 2^256 (R40; said in Machine/Domain.lean, proved in
Laws/Field.lean). -/
def dpP : Nat := 0xFFFFFFFFFFFFFFFFFFFFFFFFFFFFFFFFFFFFFFFFFFFFFFFFFFFFFFFEFFFFFC2F

/-- n, the order of G (R38; spec/90_conflicts.md C2). It is prime, and the order of the group of curve points (R40; said
in Machine/Domain.lean, proved in Laws/Field.lean and Laws/Scalar.lean). -/
def dpN : Nat := 0xFFFFFFFFFFFFFFFFFFFFFFFFFFFFFFFEBAAEDCE6AF48A03BBFD25E8CD0364141

/-- The x coordinate of G (R39). -/
def dpGx : Nat := 0x79BE667EF9DCBBAC55A06295CE870B07029BFCDB2DCE28D959F2815B16F81798

/-- The y coordinate of G (R39). -/
def dpGy : Nat := 0x483ADA7726A3C4655DA4FBFC0E1108A8FD17B448A68554199C47D08FFB10D4B8

/-- The curve coefficient a (R37). -/
def dpA : Nat := 0

/-- The curve coefficient b (R37). -/
def dpB : Nat := 7

/-- The cofactor h (R37). -/
def dpH : Nat := 1

/-- The base point G (R39). It is on the curve and n·G = INF (R40; said in Machine/Domain.lean, proved in
Laws/Scalar.lean). -/
def baseG : Point := .fin dpGx dpGy

end Sys2Proof.Machine
end

