-- ==== Sys2Proof/Machine/Operands.lean ====
section
/-! DEFINITION. Operand forms: words of 256-bit registers, the register map, points in and out of registers,
the input snapshot, scalars. -/

namespace Sys2Proof.Machine

/-- Word `i` of a 256-bit register, REG[32i+31:32i] (spec/20_memory.md R66). -/
def getWord (reg : Word256) (i : Nat) : Word32 := reg.extractLsb' (32 * i) 32

/-- The register with word `i` replaced and its other words unchanged (spec/20_memory.md R64, R67). -/
def setWord (reg : Word256) (i : Nat) (v : Word32) : Word256 :=
  (reg &&& ~~~((0xFFFFFFFF : Word256) <<< (32 * i))) ||| (v.setWidth 256 <<< (32 * i))

/-- The register map's 256-bit rows, each with its base offset (spec/20_memory.md R61). -/
def wideMap : List (Nat × WideReg) :=
  [(0x020, .opa), (0x040, .opb), (0x060, .opc), (0x080, .p1x), (0x0A0, .p1y), (0x0C0, .p2x), (0x0E0, .p2y)] ++
  [(0x100, .res0), (0x120, .res1), (0x140, .rx), (0x160, .ry)] ++
  [(0x200, .dpP), (0x220, .dpN), (0x240, .dpGx), (0x260, .dpGy), (0x280, .dpA), (0x2A0, .dpB), (0x2C0, .dpH)]

/-- The register map's 32-bit rows (spec/20_memory.md R61). -/
def narrowMap : List (Nat × RegSel) :=
  [(0x000, .id), (0x004, .ctrl), (0x008, .cmd), (0x00C, .status), (0x010, .pflags), (0x014, .rflags)]

/-- The base offset of a 256-bit register (spec/20_memory.md R61). -/
def baseOf (r : WideReg) : Nat :=
  match wideMap.find? (fun row => row.2 == r) with
  | some row => row.1
  | none => 0

/-- What an offset names: nothing when it is misaligned or reserved (spec/20_memory.md R61, R62). -/
def regAt (off : Nat) : Option RegSel :=
  if off % 4 ≠ 0 then none
  else match narrowMap.find? (fun row => row.1 == off) with
    | some row => some row.2
    | none =>
      match wideMap.find? (fun row => decide (row.1 ≤ off) && decide (off < row.1 + 0x20)) with
      | some row => some (.word row.2 ((off - row.1) / 4))
      | none => none

/-- The registers a bus write cannot write (spec/20_memory.md R61, R64): ID, RFLAGS, the output bank, the ROM. -/
def readOnlyReg : RegSel → Bool
  | .id     => true
  | .ctrl   => false
  | .cmd    => false
  | .status => false
  | .pflags => false
  | .rflags => true
  | .word r _ =>
    match r with
    | .opa | .opb | .opc | .p1x | .p1y | .p2x | .p2y => false
    | .res0 | .res1 | .rx | .ry => true
    | .dpP | .dpN | .dpGx | .dpGy | .dpA | .dpB | .dpH => true

/-- The value of a 256-bit register or ROM constant. -/
def State.wide (s : State) : WideReg → Word256
  | .opa  => s.opa
  | .opb  => s.opb
  | .opc  => s.opc
  | .p1x  => s.p1x
  | .p1y  => s.p1y
  | .p2x  => s.p2x
  | .p2y  => s.p2y
  | .res0 => s.res0
  | .res1 => s.res1
  | .rx   => s.rx
  | .ry   => s.ry
  | .dpP  => BitVec.ofNat 256 dpP
  | .dpN  => BitVec.ofNat 256 dpN
  | .dpGx => BitVec.ofNat 256 dpGx
  | .dpGy => BitVec.ofNat 256 dpGy
  | .dpA  => BitVec.ofNat 256 dpA
  | .dpB  => BitVec.ofNat 256 dpB
  | .dpH  => BitVec.ofNat 256 dpH

/-- A new value in an input register (spec/10_state.md R21, R24). The output bank and the ROM are not writable from
the bus (spec/20_memory.md R64). -/
def State.setInput (s : State) (r : WideReg) (v : Word256) : State :=
  match r with
  | .opa => { s with opa := v }
  | .opb => { s with opb := v }
  | .opc => { s with opc := v }
  | .p1x => { s with p1x := v }
  | .p1y => { s with p1y := v }
  | .p2x => { s with p2x := v }
  | .p2y => { s with p2y := v }
  | .res0 | .res1 | .rx | .ry => s
  | .dpP | .dpN | .dpGx | .dpGy | .dpA | .dpB | .dpH => s

/-- PointIn (spec/10_state.md R25): with the tag set the coordinate registers are ignored. -/
def pointIn (x y : Word256) (t : Bool) : Point :=
  if t then .inf else .fin x.toNat y.toNat

/-- The snapshot an accept takes (spec/10_state.md R42, R50). -/
def State.snapshot (s : State) (msel : Bool) : Snapshot :=
  { opa := s.opa, opb := s.opb, opc := s.opc,
    p1 := pointIn s.p1x s.p1y s.p1inf,
    p2 := pointIn s.p2x s.p2y s.p2inf,
    msel := msel }

/-- The RX, RY and RINF that PointOut writes for a point (spec/10_state.md R26). -/
def Point.outX : Point → Word256
  | .inf => 0
  | .fin x _ => BitVec.ofNat 256 x

def Point.outY : Point → Word256
  | .inf => 0
  | .fin _ y => BitVec.ofNat 256 y

def Point.isInf : Point → Bool
  | .inf => true
  | .fin _ _ => false

/-- A scalar in [1, n − 1]: Accept of a random word (spec/43_key_pair_gen.md R151), and the range of a private
key and of the components of a signature (R153, spec/44_ecdsa_signer.md R161, spec/45_ecdsa_verifier.md R171). -/
def scalarInRange (w : Nat) : Bool := decide (1 ≤ w) && decide (w ≤ dpN - 1)

end Sys2Proof.Machine
end

