-- ==== Sys2Proof/Machine/Flags.lean ====
section
/-! DEFINITION. STATUS and the other flags: the word a read gives, what an accept clears, the W1C write, how a
command's end sets them, the interrupt and request lines. -/

namespace Sys2Proof.Machine

/-- The number of an error code (spec/60_exceptions.md R200). -/
def ErrCode.code : ErrCode → BitVec 4
  | .pointNotOnCurve   => 1
  | .invalidInverse    => 2
  | .operandOutOfRange => 3
  | .illegalCommand    => 4

/-- The STATUS word (spec/10_state.md R30, spec/20_memory.md R63): ERRCODE in bits 11:8, bits 7:6 and 31:12 zero. -/
def Status.word (st : Status) : Word32 :=
  (0 : BitVec 20) ++ st.errcode ++ (0 : BitVec 2) ++ BitVec.ofBool st.rngwait ++ BitVec.ofBool st.ovr ++
    BitVec.ofBool st.vok ++ BitVec.ofBool st.err ++ BitVec.ofBool st.done ++ BitVec.ofBool st.busy

/-- What every accept clears (spec/10_state.md R42): DONE, ERR, ERRCODE and VOK; OVR is sticky (R30). -/
def Status.cleared (st : Status) : Status :=
  { st with done := false, err := false, errcode := 0, vok := false }

/-- A bus write to STATUS (spec/10_state.md R30, spec/20_memory.md R64): writing 1 to bit 1 clears DONE, to bit 2 ERR
and ERRCODE together, to bit 4 OVR; every other bit of the written value is ignored. -/
def Status.w1c (st : Status) (v : Word32) : Status :=
  { st with
    done    := st.done && !v.getLsbD 1
    err     := st.err && !v.getLsbD 2
    errcode := if v.getLsbD 2 then 0 else st.errcode
    ovr     := st.ovr && !v.getLsbD 4 }

/-- The flags at the end of every command (spec/10_state.md R46, R47): BUSY and RNGWAIT cleared, DONE set. -/
def Status.ended (st : Status) : Status :=
  { st with busy := false, rngwait := false, done := true }

/-- ERR and ERRCODE with a code (spec/10_state.md R42, R47). -/
def Status.withError (st : Status) (c : ErrCode) : Status :=
  { st with err := true, errcode := c.code }

/-- The interrupt line (spec/60_exceptions.md R205). -/
def State.irq (s : State) : Bool := s.ie && s.status.done

/-- The randomness request, raised exactly while SEQ is WAITRNG (spec/60_exceptions.md R213, spec/10_state.md R52). -/
def State.rngReq (s : State) : Bool :=
  match s.seq with
  | .waitRng _ => true
  | .idle => false
  | .run _ => false

end Sys2Proof.Machine
end

