-- ==== Sys2Proof/Machine/Ops.lean ====
section
/-! DEFINITION. The named operations every meaning uses: bus read and write, accept and drop of a command word,
commit, fail (the error completion, this hardware's exception entry), waiting for a random word, and reset. -/

namespace Sys2Proof.Machine

/-- The output values a commit writes: `none` where the command does not name the register
(spec/10_state.md R46). `point` goes through PointOut (R26). -/
structure Outs where
  res0  : Option Word256 := none
  res1  : Option Word256 := none
  point : Option Point := none
  vok   : Option Bool := none
deriving DecidableEq, Repr

/-- What a begin or attempt step evaluates to (spec/10_state.md R44, R45). -/
inductive Result where
  | ok (outs : Outs)
  | raise (c : ErrCode)
  | needRng (w : Waiting)
deriving DecidableEq, Repr

/-- Commit (spec/10_state.md R46): the named outputs, then BUSY, RNGWAIT, DONE and SEQ; SNAP and the context are
discarded. -/
def State.commit (s : State) (o : Outs) : State :=
  { s with
    res0   := o.res0.getD s.res0
    res1   := o.res1.getD s.res1
    rx     := (o.point.map Point.outX).getD s.rx
    ry     := (o.point.map Point.outY).getD s.ry
    rinf   := (o.point.map Point.isInf).getD s.rinf
    status := { s.status.ended with vok := o.vok.getD s.status.vok }
    seq    := .idle
    snap   := .discarded }

/-- One register of OutRegs takes an unconstrained value (spec/10_state.md R47), a new one at every draw of this
instance. DESIGN CHOICE: the value is named by the instance's own counter, so two instances (or two runs) with equal
counters draw equal values; the spec relates them in no way (spec/60_exceptions.md R214). Log entries 5 and 21. VOK is
never drawn: R47 keeps it at 0, and VERIFY never fails (spec/45_ecdsa_verifier.md R172, log entry 16). -/
def State.drawReg (s : State) : OutReg → State
  | .res0 => { s with res0 := Config.freeWord s.draws, draws := s.draws + 1 }
  | .res1 => { s with res1 := Config.freeWord s.draws, draws := s.draws + 1 }
  | .rx   => { s with rx := Config.freeWord s.draws, draws := s.draws + 1 }
  | .ry   => { s with ry := Config.freeWord s.draws, draws := s.draws + 1 }
  | .rinf => { s with rinf := Config.freeFlag s.draws, draws := s.draws + 1 }
  | .vok  => s

/-- Every register of a list is drawn, in order. -/
def State.drawRegs (s : State) : List OutReg → State
  | [] => s
  | r :: rs => (s.drawReg r).drawRegs rs

/-- Fail (spec/10_state.md R47, spec/60_exceptions.md R208), the error completion: the command's output registers are
drawn, ERR and ERRCODE record the error, and the command ends. -/
def State.fail (s : State) (regs : List OutReg) (c : ErrCode) : State :=
  { s.drawRegs regs with
    status := (s.status.withError c).ended
    seq    := .idle
    snap   := .discarded }

/-- NeedRng (spec/10_state.md R44, R45): SEQ is WAITRNG with the context, and the randomness request is raised. -/
def State.await (s : State) (w : Waiting) : State :=
  { s with seq := .waitRng w, status := { s.status with rngwait := true } }

/-- How the result of a begin or attempt step of a command is handled (spec/10_state.md R44, R45). -/
def State.conclude (s : State) (i : Instr) : Result → State
  | .ok o => s.commit o
  | .raise c => s.fail i.outRegs c
  | .needRng w => s.await w

/-- An attempt step (spec/10_state.md R45): it consumes the delivered word; without one no attempt step is taken and
the command goes on waiting (spec/70_reset_and_hazards.md R240). -/
def State.attempt (s : State) (i : Instr) (f : Word256 → Result) : State :=
  match s.rngIn with
  | none => s
  | some w => { s with rngIn := none }.conclude i (f w)

/-- Accept (spec/10_state.md R42): the word is recorded and the flags of the last command cleared; an illegal word
completes at once with code 4 (spec/30_encoding.md R86), a legal one takes the snapshot and starts. -/
def State.accept (s : State) (v : Word32) : State :=
  match decode v with
  | .illegal _ =>
    { s with
      cmdLast := v
      status  := { (s.status.cleared.withError .illegalCommand) with done := true } }
  | .instr i =>
    { s with
      cmdLast := v
      status  := { s.status.cleared with busy := true }
      snap    := s.snapshot (v.getLsbD 4)
      seq     := .run i.op }

/-- A dropped command word (spec/10_state.md R43): only OVR is set. -/
def State.drop (s : State) : State :=
  { s with status := { s.status with ovr := true } }

/-- A word written to CMD (spec/20_memory.md R64): accepted while BUSY = 0, else dropped. -/
def State.cmdWrite (s : State) (v : Word32) : State :=
  if s.status.busy then s.drop else s.accept v

/-- The response to the last bus access (log entry 4). -/
def State.respond (s : State) (r : BusResp) : State := { s with resp := some r }

/-- The register an access reaches: none when its width is not 32 bits, or its offset is misaligned or reserved
(spec/20_memory.md R62, R65). -/
def accessed (off : Offset) (width : Nat) : Option RegSel :=
  if width = 32 then regAt off.toNat else none

/-- The 32 bits a mapped register reads as (spec/20_memory.md R63): reserved bits are 0. -/
def State.readReg (s : State) : RegSel → Word32
  | .id       => idValue
  | .ctrl     => BitVec.setWidth 32 (BitVec.ofBool s.ie)
  | .cmd      => s.cmdLast
  | .status   => s.status.word
  | .pflags   => BitVec.setWidth 32 (BitVec.ofBool s.p2inf ++ BitVec.ofBool s.p1inf)
  | .rflags   => BitVec.setWidth 32 (BitVec.ofBool s.rinf)
  | .word r i => getWord (s.wide r) i

/-- BusRead (spec/20_memory.md R63): the response and the data; a refused read gives data 0 (R65). -/
def State.busRead (s : State) (off : Offset) (width : Nat) : BusResp :=
  match accessed off width with
  | none => .read .slverr 0
  | some r => .read .okay (s.readReg r)

/-- The effect of a write on a writable register (spec/20_memory.md R64). -/
def State.writeReg (s : State) (r : RegSel) (v : Word32) : State :=
  match r with
  | .id       => s
  | .ctrl     => { s with ie := v.getLsbD 0 }
  | .cmd      => s.cmdWrite v
  | .status   => { s with status := s.status.w1c v }
  | .pflags   => { s with p1inf := v.getLsbD 0, p2inf := v.getLsbD 1 }
  | .rflags   => s
  | .word r i => s.setInput r (setWord (s.wide r) i v)

/-- BusWrite (spec/20_memory.md R64): a refused write changes nothing (R65). -/
def State.busWrite (s : State) (off : Offset) (width : Nat) (v : Word32) : State :=
  match accessed off width with
  | none => s.respond (.write .slverr)
  | some r =>
    if readOnlyReg r then s.respond (.write .slverr)
    else (s.writeReg r v).respond (.write .okay)

/-- The reset event (spec/70_reset_and_hazards.md R230): every register at its reset value, SEQ IDLE, snapshot and
context discarded, no bus response. The events still to come and the count of free values are the model's own and
go on (log entry 18). -/
def State.resetEvent (s : State) : State :=
  { State.reset with pending := s.pending, draws := s.draws }

/-- The command whose step the sequencer has to take next: none while IDLE (spec/10_state.md R41). In RUN the
operation of SEQ and MSEL of the snapshot name it (spec/40_field_arithmetic.md R101). -/
def State.current (s : State) : Option Instr :=
  match s.seq with
  | .idle => none
  | .run op => some (Instr.ofOp op s.snap.msel)
  | .waitRng .genpriv => some .genpriv
  | .waitRng .keypair => some .keypair
  | .waitRng (.sign _ _) => some .sign

/-- The next turn is the sequencer's (log entry 2). -/
def State.sequencerNext (s : State) : State :=
  match s.pending with
  | [] => s
  | e :: es => { s with pending := .tick :: e :: es }

/-- The state in which a word has just been taken as a command and the next step is its first one: for a legal word
the state after its accept (spec/10_state.md R42), with no earlier command running and the sequencer to move next;
for any other word a CMD write of it still to come (log entry 8). -/
def State.withCommand (s : State) (v : Word32) : State :=
  let idle : State := { s with status := { s.status with busy := false, rngwait := false }, seq := .idle }
  match decode v with
  | .instr _ => (idle.accept v).sequencerNext
  | .illegal _ => { idle with pending := .write 0x008 32 v :: s.pending }

end Sys2Proof.Machine
end

