-- ==== Sys2Proof/Machine/Field.lean ====
section
/-! DEFINITION. Field arithmetic (spec/40_field_arithmetic.md): the internal modular functions, and the meanings of
INV.P, INV.N, EXP.P and EXP.N. -/

namespace Sys2Proof.Machine

/-- `a mod m` of any integer: the non-negative remainder (spec/00_scope.md R8). -/
def modInt (a : Int) (m : Nat) : Nat := (a % (m : Int)).toNat

/-- ModAdd, ModSub and ModMul (spec/40_field_arithmetic.md R100): exact, then reduced into [0, m). -/
def modAdd (a b : Int) (m : Nat) : Nat := modInt (a + b) m

def modSub (a b : Int) (m : Nat) : Nat := modInt (a - b) m

def modMul (a b : Int) (m : Nat) : Nat := modInt (a * b) m

/-- The number of bits of k; bitlen(0) = 0 (spec/00_scope.md R7). -/
def bitlen (k : Nat) : Nat := if k = 0 then 0 else Nat.log2 k + 1

/-- Square and multiply over the bits of the exponent, least significant first: `acc · base^e mod m`, for an `e` of
at most `fuel` bits. -/
def powLoop (m : Nat) : Nat → Nat → Nat → Nat → Nat
  | 0, _, _, acc => acc
  | fuel + 1, base, e, acc =>
    powLoop m fuel (base * base % m) (e / 2) (if e % 2 = 1 then acc * base % m else acc)

/-- Exp (spec/40_field_arithmetic.md R103): `(a^e) mod m`, with a^0 = 1 for every a. Laws/Field.lean proves that
this computation is that power. -/
def expMod (a e m : Nat) : Nat := powLoop m (bitlen e) (a % m) e (1 % m)

/-- Inv (spec/40_field_arithmetic.md R102): the inverse as a^(m − 2) mod m, one of the two algorithms the source
allows for a prime m; both give the same value. Log entry 13. -/
def invMod (a m : Nat) : Except ErrCode Nat :=
  if a % m = 0 then .error .invalidInverse else .ok (expMod a (m - 2) m)

/-- The result of a computed value or of a raised error. -/
def Result.ofExcept {α : Type} (r : Except ErrCode α) (f : α → Outs) : Result :=
  match r with
  | .error c => .raise c
  | .ok a => .ok (f a)

/-- Begin_INV (spec/40_field_arithmetic.md R104) for the modulus of the command (R101). -/
def beginInv (m : Nat) (sn : Snapshot) : Result :=
  .ofExcept (invMod sn.opa.toNat m) (fun x => { res0 := some (BitVec.ofNat 256 x) })

/-- Begin_EXP (spec/40_field_arithmetic.md R105) for the modulus of the command (R101). -/
def beginExp (m : Nat) (sn : Snapshot) : Result :=
  .ok { res0 := some (BitVec.ofNat 256 (expMod sn.opa.toNat sn.opb.toNat m)) }

/-- INV.P (spec/40_field_arithmetic.md R104). -/
def execInvP (s : State) : Host.Outcome State Fault Refusal :=
  .next (s.conclude .invP (beginInv dpP s.snap))

/-- INV.N (spec/40_field_arithmetic.md R104). -/
def execInvN (s : State) : Host.Outcome State Fault Refusal :=
  .next (s.conclude .invN (beginInv dpN s.snap))

/-- EXP.P (spec/40_field_arithmetic.md R105). -/
def execExpP (s : State) : Host.Outcome State Fault Refusal :=
  .next (s.conclude .expP (beginExp dpP s.snap))

/-- EXP.N (spec/40_field_arithmetic.md R105). -/
def execExpN (s : State) : Host.Outcome State Fault Refusal :=
  .next (s.conclude .expN (beginExp dpN s.snap))

end Sys2Proof.Machine
end

