-- ==== Sys2Proof/Machine/Curve.lean ====
section
/-! DEFINITION. Curve points (spec/41_point_ops.md): the on-curve checker, identity_mux, point_adder, point_doubler,
and the meanings of PADD and PDBL. -/

namespace Sys2Proof.Machine

/-- The on-curve checker (spec/41_point_ops.md R121): canonical coordinates that satisfy y² = x³ + a·x + b mod p. -/
def onCurve : Point → Bool
  | .inf => true
  | .fin x y =>
    decide (x < dpP) && decide (y < dpP) &&
      decide (modInt ((y : Int) * y - ((x : Int) * x * x + (dpA : Int) * x + dpB)) dpP = 0)

/-- The negative of a point (spec/41_point_ops.md R122). No command negates: a host writes p − y into the Y register. -/
def negPoint : Point → Point
  | .inf => .inf
  | .fin x y => .fin x (modSub dpP y dpP)

/-- identity_mux (spec/41_point_ops.md R123): P is tested first. -/
def idMux : Point → Point → Option Point
  | .inf, q => some q
  | p, .inf => some p
  | .fin _ _, .fin _ _ => none

/-- Step 6 of the group law (spec/41_point_ops.md R124): the third point of a line of slope `lam`. -/
def chordPoint (lam xP yP xQ : Nat) : Point :=
  let xR := modInt ((lam : Int) * lam - xP - xQ) dpP
  .fin xR (modInt ((lam : Int) * ((xP : Int) - xR) - yP) dpP)

/-- The slope of step 4, the tangent at (x, y) (spec/41_point_ops.md R124). -/
def tangentSlope (x y : Nat) : Except ErrCode Nat :=
  match invMod (2 * y) dpP with
  | .error c => .error c
  | .ok i => .ok (modMul (modAdd (3 * x * x) dpA dpP) i dpP)

/-- The slope of step 5, the chord through two points (spec/41_point_ops.md R124). -/
def chordSlope (xP yP xQ yQ : Nat) : Except ErrCode Nat :=
  match invMod (modSub xP xQ dpP) dpP with
  | .error c => .error c
  | .ok i => .ok (modMul (modSub yP yQ dpP) i dpP)

/-- Steps 2 to 6 of the group law on two finite points (spec/41_point_ops.md R124). -/
def addFinite (xP yP xQ yQ : Nat) : Except ErrCode Point :=
  if xP = xQ ∧ (yP + yQ) % dpP = 0 then .ok .inf
  else if xP = xQ ∧ yP = yQ then
    if yP = 0 then .ok .inf
    else match tangentSlope xP yP with
      | .error c => .error c
      | .ok lam => .ok (chordPoint lam xP yP xQ)
  else match chordSlope xP yP xQ yQ with
    | .error c => .error c
    | .ok lam => .ok (chordPoint lam xP yP xQ)

/-- The point_adder (spec/41_point_ops.md R124): the on-curve check before every other step
(spec/90_conflicts.md C1), then identity_mux, then steps 2 to 6. Where identity_mux answers `none` both points are
finite (Laws/Curve.lean), so the last arm is never met. -/
def addPoints (P Q : Point) : Except ErrCode Point :=
  if onCurve P && onCurve Q then
    match idMux P Q, P, Q with
    | some R, _, _ => .ok R
    | none, .fin xP yP, .fin xQ yQ => addFinite xP yP xQ yQ
    | none, _, _ => .ok .inf
  else .error .pointNotOnCurve

/-- The point_doubler (spec/41_point_ops.md R126). -/
def doublePoint (P : Point) : Except ErrCode Point := addPoints P P

/-- The outputs of a point result (spec/10_state.md R26). -/
def pointOuts (R : Point) : Outs := { point := some R }

/-- Begin_PADD (spec/41_point_ops.md R127). -/
def beginPadd (sn : Snapshot) : Result := .ofExcept (addPoints sn.p1 sn.p2) pointOuts

/-- Begin_PDBL (spec/41_point_ops.md R128). -/
def beginPdbl (sn : Snapshot) : Result := .ofExcept (doublePoint sn.p1) pointOuts

/-- PADD (spec/41_point_ops.md R127). -/
def execPadd (s : State) : Host.Outcome State Fault Refusal :=
  .next (s.conclude .padd (beginPadd s.snap))

/-- PDBL (spec/41_point_ops.md R128). -/
def execPdbl (s : State) : Host.Outcome State Fault Refusal :=
  .next (s.conclude .pdbl (beginPdbl s.snap))

end Sys2Proof.Machine
end

