-- ==== Sys2Proof/Machine/Scalar.lean ====
section
/-! DEFINITION. The scalar multiplier (spec/42_scalar_multiplier.md): Mul, and the meaning of SMUL. -/

namespace Sys2Proof.Machine

/-- The double-and-add loop (spec/42_scalar_multiplier.md R140) over the next `j` bits of `k`, least significant
first: R takes S where the bit is 1, and S is doubled at every bit. -/
def mulLoop : Nat → Nat → Point → Point → Except ErrCode Point
  | 0, _, R, _ => .ok R
  | j + 1, k, R, S =>
    match (if k % 2 = 1 then addPoints R S else .ok R) with
    | .error c => .error c
    | .ok R' =>
      match addPoints S S with
      | .error c => .error c
      | .ok S' => mulLoop j (k / 2) R' S'

/-- Mul (spec/42_scalar_multiplier.md R140): Q is checked before k is looked at. -/
def mulPoint (k : Nat) (Q : Point) : Except ErrCode Point :=
  if onCurve Q then mulLoop (bitlen k) k .inf Q else .error .pointNotOnCurve

/-- Begin_SMUL (spec/42_scalar_multiplier.md R142). -/
def beginSmul (sn : Snapshot) : Result := .ofExcept (mulPoint sn.opa.toNat sn.p1) pointOuts

/-- SMUL (spec/42_scalar_multiplier.md R142). -/
def execSmul (s : State) : Host.Outcome State Fault Refusal :=
  .next (s.conclude .smul (beginSmul s.snap))

end Sys2Proof.Machine
end

