-- ==== Sys2Proof/Machine/KeyGen.lean ====
section
/-! DEFINITION. The key-pair generator (spec/43_key_pair_gen.md): the meanings of GENPRIV, DERIVE and KEYPAIR. -/

namespace Sys2Proof.Machine

/-- Begin_GENPRIV (spec/43_key_pair_gen.md R152). -/
def beginGenpriv : Result := .needRng .genpriv

/-- Attempt_GENPRIV (R152): a word outside [1, n − 1] is discarded (R151). -/
def attemptGenpriv (w : Word256) : Result :=
  if scalarInRange w.toNat then .ok { res0 := some w } else .needRng .genpriv

/-- Begin_DERIVE (spec/43_key_pair_gen.md R153). -/
def beginDerive (sn : Snapshot) : Result :=
  if scalarInRange sn.opa.toNat then .ofExcept (mulPoint sn.opa.toNat baseG) pointOuts
  else .raise .operandOutOfRange

/-- Begin_KEYPAIR (spec/43_key_pair_gen.md R154). -/
def beginKeypair : Result := .needRng .keypair

/-- Attempt_KEYPAIR (R154). -/
def attemptKeypair (w : Word256) : Result :=
  if scalarInRange w.toNat then
    .ofExcept (mulPoint w.toNat baseG) (fun R => { res0 := some w, point := some R })
  else .needRng .keypair

/-- GENPRIV (spec/43_key_pair_gen.md R152): an attempt step while it waits for a word, else its begin step. -/
def execGenpriv (s : State) : Host.Outcome State Fault Refusal :=
  match s.seq with
  | .waitRng .genpriv => .next (s.attempt .genpriv attemptGenpriv)
  | _ => .next (s.conclude .genpriv beginGenpriv)

/-- DERIVE (spec/43_key_pair_gen.md R153). -/
def execDerive (s : State) : Host.Outcome State Fault Refusal :=
  .next (s.conclude .derive (beginDerive s.snap))

/-- KEYPAIR (spec/43_key_pair_gen.md R154): an attempt step while it waits for a word, else its begin step. -/
def execKeypair (s : State) : Host.Outcome State Fault Refusal :=
  match s.seq with
  | .waitRng .keypair => .next (s.attempt .keypair attemptKeypair)
  | _ => .next (s.conclude .keypair beginKeypair)

end Sys2Proof.Machine
end

