-- ==== Sys2Proof/Machine/Signer.lean ====
section
/-! DEFINITION. The ECDSA signer (spec/44_ecdsa_signer.md): the meaning of SIGN. -/

namespace Sys2Proof.Machine

/-- The x coordinate of a finite point. -/
def Point.xCoord : Point → Option Nat
  | .inf => none
  | .fin x _ => some x

/-- Begin_SIGN (spec/44_ecdsa_signer.md R161): d is checked before any word is requested. -/
def beginSign (sn : Snapshot) : Result :=
  if scalarInRange sn.opb.toNat then .needRng (.sign sn.opa sn.opb) else .raise .operandOutOfRange

/-- r and s of one attempt with the nonce `k` (spec/44_ecdsa_signer.md R162): `none` where the attempt is given up
(r = 0, or s = 0). k·G is never the identity for k in [1, n − 1] (spec/42_scalar_multiplier.md R141), so its case is
never met; it gives the attempt up. -/
def signWith (z d k : Nat) : Except ErrCode (Option (Nat × Nat)) :=
  match mulPoint k baseG with
  | .error c => .error c
  | .ok P =>
    match P.xCoord with
    | none => .ok none
    | some xP =>
      let r := xP % dpN
      if r = 0 then .ok none
      else match invMod k dpN with
        | .error c => .error c
        | .ok i =>
          let s := modMul i (((z + r * d) % dpN : Nat) : Int) dpN
          if s = 0 then .ok none else .ok (some (r, s))

/-- Attempt_SIGN (spec/44_ecdsa_signer.md R162): one delivered word is one nonce; nothing of a failed attempt is kept
but {z, d} (R163). -/
def attemptSign (z d w : Word256) : Result :=
  if scalarInRange w.toNat then
    match signWith z.toNat d.toNat w.toNat with
    | .error c => .raise c
    | .ok none => .needRng (.sign z d)
    | .ok (some rs) =>
      .ok { res0 := some (BitVec.ofNat 256 rs.1), res1 := some (BitVec.ofNat 256 rs.2) }
  else .needRng (.sign z d)

/-- SIGN (spec/44_ecdsa_signer.md R161, R162): an attempt step while it waits for a word, else its begin step. -/
def execSign (s : State) : Host.Outcome State Fault Refusal :=
  match s.seq with
  | .waitRng (.sign z d) => .next (s.attempt .sign (attemptSign z d))
  | _ => .next (s.conclude .sign (beginSign s.snap))

end Sys2Proof.Machine
end

