-- ==== Sys2Proof/Machine/Verifier.lean ====
section
/-! DEFINITION. The ECDSA verifier (spec/45_ecdsa_verifier.md): the meaning of VERIFY. -/

namespace Sys2Proof.Machine

/-- Step 1 of the verifier (spec/45_ecdsa_verifier.md R170, R171): a finite key on the curve, r and s in [1, n − 1]. -/
def signatureValid (r s : Nat) (H : Point) : Bool :=
  !H.isInf && onCurve H && scalarInRange r && scalarInRange s

/-- Steps 2 and 3 (spec/45_ecdsa_verifier.md R171): the point W = u1·G + u2·H. -/
def verifyPoint (z r s : Nat) (H : Point) : Except ErrCode Point :=
  match invMod s dpN with
  | .error c => .error c
  | .ok w =>
    match mulPoint (modMul w z dpN) baseG with
    | .error c => .error c
    | .ok U1 =>
      match mulPoint (modMul w r dpN) H with
      | .error c => .error c
      | .ok U2 => addPoints U1 U2

/-- Steps 4 and 5 (spec/45_ecdsa_verifier.md R171): W is finite and r is its x coordinate mod n. -/
def verifyMatch (r : Nat) (W : Point) : Bool :=
  match W.xCoord with
  | none => false
  | some xW => decide (r = xW % dpN)

/-- Begin_VERIFY (spec/45_ecdsa_verifier.md R171): every malformed input is a false result, not an error. -/
def beginVerify (sn : Snapshot) : Result :=
  if signatureValid sn.opb.toNat sn.opc.toNat sn.p1 then
    .ofExcept (verifyPoint sn.opa.toNat sn.opb.toNat sn.opc.toNat sn.p1)
      (fun W => { vok := some (verifyMatch sn.opb.toNat W) })
  else .ok { vok := some false }

/-- VERIFY (spec/45_ecdsa_verifier.md R171). -/
def execVerify (s : State) : Host.Outcome State Fault Refusal :=
  .next (s.conclude .verify (beginVerify s.snap))

end Sys2Proof.Machine
end

