-- ==== Sys2Proof/Machine/Dispatch.lean ====
section
/-! DEFINITION. One arm per constructor of Instr. `exec i s` is one step of the sequencer for the command `i`: its
begin step (spec/10_state.md R44) or, while it waits for a random word, its attempt step (R45). Log entry 1. -/

namespace Sys2Proof.Machine

def exec (i : Instr) (s : State) : Host.Outcome State Fault Refusal :=
  match i with
  | .invP => Sys2Proof.Machine.execInvP s
  | .invN => Sys2Proof.Machine.execInvN s
  | .expP => Sys2Proof.Machine.execExpP s
  | .expN => Sys2Proof.Machine.execExpN s
  | .padd => Sys2Proof.Machine.execPadd s
  | .pdbl => Sys2Proof.Machine.execPdbl s
  | .smul => Sys2Proof.Machine.execSmul s
  | .genpriv => Sys2Proof.Machine.execGenpriv s
  | .derive => Sys2Proof.Machine.execDerive s
  | .keypair => Sys2Proof.Machine.execKeypair s
  | .sign => Sys2Proof.Machine.execSign s
  | .verify => Sys2Proof.Machine.execVerify s

end Sys2Proof.Machine
end

