-- ==== Sys2Proof/Machine/Sequencer.lean ====
section
/-! DEFINITION. What each agent's turn does: the sequencer's, and the environment's events
(spec/70_reset_and_hazards.md R245). -/

namespace Sys2Proof.Machine

/-- The sequencer's turn (spec/10_state.md R41, R44, R45): one step of the command that runs. IDLE it has nothing to do
and waits for a CMD write (spec/60_exceptions.md R216). -/
def sequencerTurn (s : State) : Host.Outcome State Fault Refusal :=
  match s.current with
  | none => .next s
  | some i => exec i s

/-- Deliver(w) (spec/60_exceptions.md R213): taken by one attempt step while the request is raised; otherwise the word
does not exist as far as the block is concerned. -/
def deliverWord (w : Word256) (s : State) : Host.Outcome State Fault Refusal :=
  if s.rngReq then sequencerTurn { s with rngIn := some w } else .next s

/-- One event of the environment, or the sequencer's turn (spec/20_memory.md R72). -/
def handleEvent (e : Event) (s : State) : Host.Outcome State Fault Refusal :=
  match e with
  | .read off width    => .next (s.respond (s.busRead off width))
  | .write off width v => .next (s.busWrite off width v)
  | .deliver w         => deliverWord w s
  | .tick              => sequencerTurn s
  | .reset             => .next s.resetEvent

end Sys2Proof.Machine
end

