-- ==== Sys2Proof/Machine/Step.lean ====
section
/-! DEFINITION. The step function: the next pending event, or the sequencer's turn where none is pending
(spec/20_memory.md R72, spec/70_reset_and_hazards.md R244; log entry 2). -/

namespace Sys2Proof.Machine

/-- One transition of the block (spec/10_state.md R48). -/
def step (s : State) : Host.Outcome State Fault Refusal :=
  match s.pending with
  | [] => sequencerTurn s
  | e :: rest => handleEvent e { s with pending := rest }

/-- `s` with the command word of `nbits` bits `w` where the next step runs it (log entry 8). -/
def State.withFetchWord (s : State) (nbits w : Nat) : State :=
  s.withCommand (BitVec.ofNat 32 (w % 2 ^ nbits))

end Sys2Proof.Machine
end

