-- ==== Sys2Proof/Machine/Domain.lean ====
section
/-! DEFINITION. The properties of the domain constants (spec/10_state.md R40), one definition for each sentence of the
rule, said of the constants of Machine/Rom.lean and of the machine's own onCurve, negPoint and mulPoint. -/

namespace Sys2Proof.Machine

/-- A 256-bit register holds this number unchanged. -/
def fitsRegister (v : Nat) : Prop := (BitVec.ofNat 256 v).toNat = v

/-- spec/10_state.md R40: p and n are prime, and n < p < 2^256. -/
def constantsArePrime : Prop := Nat.Prime dpP ∧ Nat.Prime dpN ∧ dpN < dpP ∧ dpP < 2 ^ 256

/-- spec/10_state.md R40: every canonical coordinate, every scalar reduced mod n, and both constants fit a 256-bit
register. So PointOut and the commits of scalars (R26, R46) lose no bit. -/
def valuesFitRegisters : Prop :=
  (∀ x, x < dpP → fitsRegister x) ∧ (∀ k, fitsRegister (k % dpN)) ∧ fitsRegister dpP ∧ fitsRegister dpN

/-- spec/10_state.md R40: G is on the curve, and Mul(n, G) = INF. -/
def nTimesBaseIsInf : Prop := onCurve baseG = true ∧ mulPoint dpN baseG = .ok .inf

/-- spec/10_state.md R40: with h = 1, the group of curve points (all that pass OnCurve) has order n; h, the cofactor, is
that order divided by n. -/
def groupHasOrderN : Prop :=
  dpH = 1 ∧ Nat.card { Q : Point // onCurve Q = true } = dpN ∧ dpH = Nat.card { Q : Point // onCurve Q = true } / dpN

/-- spec/10_state.md R40: the point Q has order exactly n. -/
def hasOrderN (Q : Point) : Prop :=
  mulPoint dpN Q = .ok .inf ∧ ∀ k, 0 < k → k < dpN → mulPoint k Q ≠ .ok .inf

/-- spec/10_state.md R40: Mul(k, Q) = Mul(k mod n, Q). -/
def multiplesReduceModN (Q : Point) : Prop := ∀ k, mulPoint k Q = mulPoint (k % dpN) Q

/-- spec/10_state.md R40: no curve point has y = 0; such a point would equal its own negative, and n is odd. -/
def noPointHasYZero : Prop :=
  (∀ x, negPoint (.fin x 0) = .fin x 0) ∧ dpN % 2 = 1 ∧ ∀ x y, onCurve (.fin x y) = true → y ≠ 0

end Sys2Proof.Machine
end

