-- ==== Sys2Proof/Machine/HostNotation.lean ====
section
/-! DEFINITION. The host-level notation for programs that drive the block (spec/30_encoding.md R88): the forms and the
pseudo-instructions, each as the events it puts on the bus or the port. WAIT is a loop of the host over STATUS reads,
so it has no fixed list of events; one round of it is a read of STATUS. -/

namespace Sys2Proof.Machine

/-- WR off, imm32 -/
def wr (off : Nat) (v : Word32) : Event := .write (BitVec.ofNat 12 off) 32 v

/-- RD off -/
def rd (off : Nat) : Event := .read (BitVec.ofNat 12 off) 32

/-- RNG imm256 -/
def rng (w : Word256) : Event := .deliver w

/-- The word offsets of a 256-bit register, ascending. -/
def wordOffsets (r : WideReg) : List Nat := (List.range 8).map (fun i => baseOf r + 4 * i)

/-- LD256 REG, imm256: eight writes in ascending order. -/
def ld256 (r : WideReg) (v : Word256) : List Event :=
  (List.range 8).map (fun i => wr (baseOf r + 4 * i) (getWord v i))

/-- GET256 REG: eight reads in ascending order. -/
def get256 (r : WideReg) : List Event := (wordOffsets r).map rd

/-- The value GET256 assembles from the eight words it read: Σ t_i · 2^(32i). -/
def assemble (ts : List Word32) : Nat := ts.foldr (fun t rest => t.toNat + 2 ^ 32 * rest) 0

/-- SETINF b1, b2 -/
def setinf (b1 b2 : Bool) : Event :=
  wr 0x010 (BitVec.setWidth 32 (BitVec.ofBool b2 ++ BitVec.ofBool b1))

/-- CMD mnem -/
def cmd (i : Instr) : Event := wr 0x008 (encode i)

/-- One round of WAIT: a read of STATUS. -/
def waitRound : Event := rd 0x00C

/-- ACK: clears DONE, ERR with ERRCODE, and OVR. -/
def ack : Event := wr 0x00C 0x00000016

end Sys2Proof.Machine
end

