-- ==== Sys2Proof/Machine/Platform.lean ====
section
/-! DEFINITION. The open platform parameters (spec/00_scope.md R6): BASE_ADDR, where an instance's window sits in the
host's address space (spec/20_memory.md R60), and NUM_INSTANCES, how many independent instances there are
(spec/60_exceptions.md R214). One instance is the machine of Step.lean; this file only places instances. -/

namespace Sys2Proof.Machine

/-- One placed instance: its BASE_ADDR and its own state. -/
structure Placed where
  base  : Nat
  block : State
deriving DecidableEq, Repr

/-- NUM_INSTANCES instances. They share nothing but the constants (spec/60_exceptions.md R214).
The free values that their fails draw are named by each instance's own counter: log entry 21. -/
structure Platform where
  instances : List Placed
deriving DecidableEq, Repr

/-- The offset of a host address in a window of 4 KiB at `base`; an address outside the window does not reach the block
(spec/20_memory.md R60). -/
def windowOffset (base addr : Nat) : Option Offset :=
  if base ≤ addr ∧ addr < base + 4096 then some (BitVec.ofNat 12 (addr - base)) else none

/-- An event at the end of an instance's coming events. -/
def Placed.enqueue (p : Placed) (e : Event) : Placed :=
  { p with block := { p.block with pending := p.block.pending ++ [e] } }

/-- A host read of an address: it reaches the instance whose window holds the address. -/
def Placed.hostRead (addr width : Nat) (p : Placed) : Placed :=
  match windowOffset p.base addr with
  | none => p
  | some off => p.enqueue (.read off width)

/-- A host write of an address. -/
def Placed.hostWrite (addr width : Nat) (v : Word32) (p : Placed) : Placed :=
  match windowOffset p.base addr with
  | none => p
  | some off => p.enqueue (.write off width v)

def Platform.hostRead (P : Platform) (addr width : Nat) : Platform :=
  { P with instances := P.instances.map (Placed.hostRead addr width) }

def Platform.hostWrite (P : Platform) (addr width : Nat) (v : Word32) : Platform :=
  { P with instances := P.instances.map (Placed.hostWrite addr width v) }

/-- A word of the randomness source of instance `i` (each instance has a port of its own). -/
def Platform.deliver (P : Platform) (i : Nat) (w : Word256) : Platform :=
  { P with instances := P.instances.modify i (fun p => p.enqueue (.deliver w)) }

/-- One step of one placed instance; an instance never stops, so the other outcomes leave it as it is. -/
def Placed.advance (p : Placed) : Placed :=
  match step p.block with
  | .next b => { p with block := b }
  | .fault _ => p
  | .refused _ => p

/-- Instance `i` of the platform takes one step. -/
def Platform.advance (P : Platform) (i : Nat) : Platform :=
  { P with instances := P.instances.modify i Placed.advance }

/-- Some instance drives its interrupt line; how the lines reach a processor is the platform's business
(spec/60_exceptions.md R205). -/
def Platform.irqLines (P : Platform) : List Bool := P.instances.map (fun p => p.block.irq)

end Sys2Proof.Machine
end

