-- ==== Sys2Proof/Safety.lean ====
section
/-! DEFINITION. What a legal state of the block is: the STATUS invariants of the spec and what they rest on. -/

namespace Sys2Proof.Machine

/-- The STATUS invariants as spec/10_state.md R31 lists them. -/
structure State.StatusInv (s : State) : Prop where
  busyClear : s.status.busy = true →
    s.status.done = false ∧ s.status.err = false ∧ s.status.errcode = 0 ∧ s.status.vok = false
  errcodeIff : s.status.errcode ≠ 0 ↔ s.status.err = true
  rngwaitBusy : s.status.rngwait = true → s.status.busy = true
  busyIff : s.status.busy = true ↔ s.seq ≠ .idle
  vokVerify : s.status.vok = true → s.status.err = false ∧ s.cmdLast = 0x0000000A

/-- What the sequencer's state says of the rest: the request is STATUS.RNGWAIT (spec/10_state.md R52), the running
command is the one in CMD_LAST (R42, R49; spec/60_exceptions.md R208), a waiting SIGN holds a private key in range
(spec/44_ecdsa_signer.md R161), no code above 4 is ever held (spec/60_exceptions.md R200), and no word is left on the
port between steps (spec/10_state.md R45). -/
structure State.SeqInv (s : State) : Prop where
  rngwaitIff : s.status.rngwait = s.rngReq
  runningWord : ∀ i, s.current = some i → decode s.cmdLast = .instr i
  signKey : ∀ z d, s.seq = .waitRng (.sign z d) → scalarInRange d.toNat = true
  errcodeRange : s.status.errcode.toNat ≤ 4
  portEmpty : s.rngIn = none

/-- The invariant every step keeps. -/
structure State.Inv (s : State) : Prop where
  status : s.StatusInv
  seq : s.SeqInv

/-- The states a run can reach: the reset state with any environment (spec/70_reset_and_hazards.md R231), and what a
step makes of a reachable state. -/
inductive Reachable : State → Prop where
  | start (events : List Event) (draws : Nat) :
      Reachable { State.reset with pending := events, draws := draws }
  | step (s t : State) : Reachable s → Sys2Proof.Machine.step s = .next t → Reachable t

end Sys2Proof.Machine
end

