-- ==== Sys2Proof/Certificates/Slice0/Obligations.lean ====
section
/-! DEFINITION. The statements for the provers, each with the rule of the spec it formalises. The fields `pending`,
`resp`, `rngIn` and `draws` are the model's own (log entries 2 to 5): a statement names them to say which event or word
comes next, and where the bus response that the spec gives is found. -/

namespace Sys2Proof.Machine

/-! ## Words of the statements -/

/-- `t` is `s` after a commit (spec/10_state.md R46) that leaves these values in the output registers and VOK.
Everything else is unchanged; SNAP is discarded and its value is left open (R54). -/
def Committed (s t : State) (res0 res1 rx ry : Word256) (rinf vok : Bool) : Prop :=
  t = { s with
    res0 := res0, res1 := res1, rx := rx, ry := ry, rinf := rinf
    status := { s.status with busy := false, rngwait := false, done := true, vok := vok }
    seq := .idle, snap := t.snap }

/-- `t` is `s` after a commit whose only result is the point R (spec/10_state.md R26). -/
def CommittedPoint (s t : State) (R : Point) : Prop :=
  match R with
  | .inf => Committed s t s.res0 s.res1 0 0 true s.status.vok
  | .fin x y => Committed s t s.res0 s.res1 (BitVec.ofNat 256 x) (BitVec.ofNat 256 y) false s.status.vok

/-- `t` is `s` after a fail (spec/10_state.md R47) with this code that draws these registers: nothing is said of the
value of a drawn register, every other one keeps its value; VOK is not written. `draws` counts the model's free values
and SNAP is discarded, so neither is fixed here. -/
def Failed (s t : State) (regs : List OutReg) (code : BitVec 4) : Prop :=
  t = { s with
    res0 := if .res0 ∈ regs then t.res0 else s.res0
    res1 := if .res1 ∈ regs then t.res1 else s.res1
    rx := if .rx ∈ regs then t.rx else s.rx
    ry := if .ry ∈ regs then t.ry else s.ry
    rinf := if .rinf ∈ regs then t.rinf else s.rinf
    status := { s.status with busy := false, rngwait := false, done := true, err := true, errcode := code }
    seq := .idle, snap := t.snap, draws := t.draws }

/-- `x` is the inverse of `a` mod `m` (spec/40_field_arithmetic.md R102): the only one in (0, m). -/
def IsInverse (a m x : Nat) : Prop :=
  0 < x ∧ x < m ∧ a * x % m = 1 ∧ ∀ y, 0 < y → y < m → a * y % m = 1 → y = x

/-- The spec's Legal(v) on the bits of the word (spec/30_encoding.md R85). -/
def LegalBits (v : Word32) : Prop :=
  v.extractLsb' 5 27 = 0 ∧ 1 ≤ (v.extractLsb' 0 4).toNat ∧ (v.extractLsb' 0 4).toNat ≤ 0xA ∧
    (v.getLsbD 4 = false ∨ (v.extractLsb' 0 4).toNat = 0x1 ∨ (v.extractLsb' 0 4).toNat = 0x2)

/-- Q added to itself k times by AddPoints (spec/42_scalar_multiplier.md R141). -/
def repeatAdd : Nat → Point → Except ErrCode Point
  | 0, _ => .ok .inf
  | k + 1, Q =>
    match repeatAdd k Q with
    | .error c => .error c
    | .ok R => addPoints R Q

/-- Steps 4 and 5 of the verifier (spec/45_ecdsa_verifier.md R171): W is finite and its x coordinate mod n is r. -/
def verdict (r : Nat) : Point → Bool
  | .inf => false
  | .fin x _ => decide (r = x % dpN)

/-- The offsets of the register map that name nothing (spec/20_memory.md R70). -/
def ReservedOffset (off : Offset) : Prop :=
  (0x018 ≤ off.toNat ∧ off.toNat ≤ 0x01F) ∨ (0x180 ≤ off.toNat ∧ off.toNat ≤ 0x1FF) ∨ 0x2E0 ≤ off.toNat

/-- The offsets of read-only registers (spec/20_memory.md R61, R64): ID, RFLAGS, the output bank, the ROM. -/
def ReadOnlyOffset (off : Offset) : Prop :=
  off.toNat ≤ 0x003 ∨ (0x014 ≤ off.toNat ∧ off.toNat ≤ 0x017) ∨ (0x100 ≤ off.toNat ∧ off.toNat ≤ 0x17F) ∨
    (0x200 ≤ off.toNat ∧ off.toNat ≤ 0x2DF)

/-- The input registers of the window with their offsets (spec/10_state.md R21). -/
def inputMap : List (Nat × WideReg) :=
  [(0x020, .opa), (0x040, .opb), (0x060, .opc), (0x080, .p1x), (0x0A0, .p1y), (0x0C0, .p2x), (0x0E0, .p2y)]

/-- The read-only 256-bit registers of the window with their offsets (spec/20_memory.md R61). -/
def readOnlyMap : List (Nat × WideReg) :=
  [(0x100, .res0), (0x120, .res1), (0x140, .rx), (0x160, .ry), (0x200, .dpP), (0x220, .dpN), (0x240, .dpGx),
   (0x260, .dpGy), (0x280, .dpA), (0x2A0, .dpB), (0x2C0, .dpH)]

/-- A host write that only loads an input register, PFLAGS or CTRL (spec/10_state.md R24). -/
def IsInputWrite (off : Offset) : Prop :=
  off.toNat = 0x004 ∨ off.toNat = 0x010 ∨ (0x020 ≤ off.toNat ∧ off.toNat ≤ 0x0FF)

/-- The commands and the codes they can end with (spec/60_exceptions.md R200). -/
def mayRaise : Instr → BitVec 4 → Bool
  | .padd, c => c == 1
  | .pdbl, c => c == 1
  | .smul, c => c == 1
  | .invP, c => c == 2
  | .invN, c => c == 2
  | .derive, c => c == 3
  | .sign, c => c == 3
  | .expP, _ => false
  | .expN, _ => false
  | .genpriv, _ => false
  | .keypair, _ => false
  | .verify, _ => false

end Sys2Proof.Machine

open Sys2Proof Sys2Proof.Machine

/-! ## Reset and constants -/

/-- spec/10_state.md R54. SNAP's reset value is open there and is not stated. -/
def Obligations.ResetStateValues : Prop :=
  (State.reset.opa = 0 ∧ State.reset.opb = 0 ∧ State.reset.opc = 0 ∧ State.reset.p1x = 0 ∧ State.reset.p1y = 0 ∧
    State.reset.p2x = 0 ∧ State.reset.p2y = 0) ∧
  (State.reset.p1inf = false ∧ State.reset.p2inf = false) ∧
  (State.reset.res0 = 0 ∧ State.reset.res1 = 0 ∧ State.reset.rx = 0 ∧ State.reset.ry = 0 ∧ State.reset.rinf = false) ∧
  State.reset.ie = false ∧ State.reset.cmdLast = 0 ∧
  State.reset.status = { busy := false, done := false, err := false, vok := false, ovr := false, rngwait := false,
                         errcode := 0 } ∧
  State.reset.seq = .idle ∧ State.reset.irq = false ∧
  ∀ s : State, s.resetEvent.readReg .id = s.readReg .id ∧
    ∀ r ∈ [WideReg.dpP, .dpN, .dpGx, .dpGy, .dpA, .dpB, .dpH], ∀ i, s.resetEvent.readReg (.word r i) = s.readReg (.word r i)

/-- spec/70_reset_and_hazards.md R230: the event gives the reset state whatever ran. That the coming events and the
model's counter go on is log entry 18, and that SNAP's open value does not depend on the state before is log entry 6. -/
def Obligations.ResetEventAbandonsTheCommand : Prop :=
  ∀ (s : State) (rest : List Event), s.pending = .reset :: rest →
    ∃ t, step s = .next t ∧ t = { State.reset with pending := rest, draws := s.draws, snap := t.snap } ∧
      t.rngReq = false ∧ t.irq = false ∧ t.status.done = false ∧ t.status.err = false ∧ t.resp = none ∧ t.rngIn = none ∧
      (∀ s' : State, s'.pending = .reset :: rest → s'.draws = s.draws → step s' = .next t) ∧
      t.readReg .id = s.readReg .id ∧
      ∀ r ∈ [WideReg.dpP, .dpN, .dpGx, .dpGy, .dpA, .dpB, .dpH], ∀ i, t.readReg (.word r i) = s.readReg (.word r i)

/-- spec/10_state.md R36, R37, R38, R39: the words the ROM reads as. -/
def Obligations.RomReadsTheDomainParameters : Prop :=
  ∀ s : State,
    dpP = 2 ^ 256 - 2 ^ 32 - 977 ∧ s.wide .dpA = 0 ∧ s.wide .dpB = 7 ∧ s.wide .dpH = 1 ∧
    (List.range 8).map (fun i => s.readReg (.word .dpP i)) =
      [0xFFFFFC2F, 0xFFFFFFFE, 0xFFFFFFFF, 0xFFFFFFFF, 0xFFFFFFFF, 0xFFFFFFFF, 0xFFFFFFFF, 0xFFFFFFFF] ∧
    (List.range 8).map (fun i => s.readReg (.word .dpN i)) =
      [0xD0364141, 0xBFD25E8C, 0xAF48A03B, 0xBAAEDCE6, 0xFFFFFFFE, 0xFFFFFFFF, 0xFFFFFFFF, 0xFFFFFFFF] ∧
    (List.range 8).map (fun i => s.readReg (.word .dpGx i)) =
      [0x16F81798, 0x59F2815B, 0x2DCE28D9, 0x029BFCDB, 0xCE870B07, 0x55A06295, 0xF9DCBBAC, 0x79BE667E] ∧
    (List.range 8).map (fun i => s.readReg (.word .dpGy i)) =
      [0xFB10D4B8, 0x9C47D08F, 0xA6855419, 0xFD17B448, 0x0E1108A8, 0x5DA4FBFC, 0x26A3C465, 0x483ADA77]

/-- spec/10_state.md R40, sentence by sentence (Machine/Domain.lean). -/
def Obligations.ConstantsHaveTheirProperties : Prop :=
  constantsArePrime ∧ valuesFitRegisters ∧ nTimesBaseIsInf ∧ groupHasOrderN ∧
  (∀ Q, onCurve Q = true → Q ≠ .inf → hasOrderN Q ∧ multiplesReduceModN Q) ∧
  noPointHasYZero

/-! ## Encoding -/

/-- spec/30_encoding.md R85: the legal words, and that they are exactly the twelve of R84. -/
def Obligations.LegalWordsAreTheTwelve : Prop :=
  (∀ v : Word32, (∃ i, decode v = .instr i) ↔ LegalBits v) ∧
  (∀ v : Word32, LegalBits v ↔
    v ∈ [0x00000001, 0x00000011, 0x00000002, 0x00000012, 0x00000003, 0x00000004, 0x00000005, 0x00000006, 0x00000007,
         0x00000008, 0x00000009, (0x0000000A : Word32)])

/-- Decoding and encoding agree in both directions, and through the table's numbering (spec/30_encoding.md R80, R84). -/
def Obligations.DecodeEncodeAgree : Prop :=
  (∀ i : Instr, i.wf = true ∧ decode (encode i) = .instr i ∧ decodeTableWord 32 (encode i).toNat = some i) ∧
  (∀ (v : Word32) (i : Instr), decode v = .instr i → encode i = v) ∧
  (∀ (v : Word32) (i : Instr), decode v = .instr i → Instr.ofOp i.op (v.getLsbD 4) = i)

/-- Words written out from the opcode map (spec/30_encoding.md R84, R86). -/
def Obligations.CommandWordsOfTheMap : Prop :=
  decode 0x00000001 = .instr .invP ∧ decode 0x00000011 = .instr .invN ∧ decode 0x00000002 = .instr .expP ∧
  decode 0x00000012 = .instr .expN ∧ decode 0x00000003 = .instr .padd ∧ decode 0x00000004 = .instr .pdbl ∧
  decode 0x00000005 = .instr .smul ∧ decode 0x00000006 = .instr .genpriv ∧ decode 0x00000007 = .instr .derive ∧
  decode 0x00000008 = .instr .keypair ∧ decode 0x00000009 = .instr .sign ∧ decode 0x0000000A = .instr .verify ∧
  decode 0x00000000 = .illegal .opcUnassigned ∧ decode 0x0000000B = .illegal .opcUnassigned ∧
  decode 0x00000013 = .illegal .mselNotAllowed ∧ decode 0x00000021 = .illegal .rsvNonzero

/-! ## The command lifecycle -/

/-- spec/10_state.md R42. The bus response is OKAY (spec/20_memory.md R64). -/
def Obligations.CmdWriteWhileIdleIsAccepted : Prop :=
  ∀ (s : State) (v : Word32) (rest : List Event), s.pending = .write 0x008 32 v :: rest → s.status.busy = false →
    ∃ t, step s = .next t ∧
      (¬ LegalBits v → t = { s with
        cmdLast := v
        status := { s.status with done := true, err := true, errcode := 4, vok := false }
        pending := rest, resp := some (.write .okay) }) ∧
      (LegalBits v → ∃ i, decode v = .instr i ∧ t = { s with
        cmdLast := v
        status := { s.status with done := false, err := false, errcode := 0, vok := false, busy := true }
        snap := { opa := s.opa, opb := s.opb, opc := s.opc
                  p1 := if s.p1inf then .inf else .fin s.p1x.toNat s.p1y.toNat
                  p2 := if s.p2inf then .inf else .fin s.p2x.toNat s.p2y.toNat
                  msel := v.getLsbD 4 }
        seq := .run i.op
        pending := rest, resp := some (.write .okay) })

/-- spec/30_encoding.md R86. -/
def Obligations.IllegalWordsBehaveIdentically : Prop :=
  (∀ v : Word32, ((v.extractLsb' 0 4).toNat = 0 ∨ 0xB ≤ (v.extractLsb' 0 4).toNat ∨ v.extractLsb' 5 27 ≠ 0 ∨
      (v.getLsbD 4 = true ∧ (v.extractLsb' 0 4).toNat ≠ 0x1 ∧ (v.extractLsb' 0 4).toNat ≠ 0x2)) ↔ ¬ LegalBits v) ∧
  ∀ (s s' : State) (v v' : Word32) (rest : List Event), ¬ LegalBits v → ¬ LegalBits v' →
    s.pending = .write 0x008 32 v :: rest → s' = { s with pending := .write 0x008 32 v' :: rest } →
    ∃ t, step s = .next t ∧
      (s.status.busy = false → step s' = .next { t with cmdLast := v' } ∧
        t.status.err = true ∧ t.status.errcode = 4 ∧ t.status.done = true ∧ t.status.busy = false ∧ t.seq = s.seq ∧
        t.res0 = s.res0 ∧ t.res1 = s.res1 ∧ t.rx = s.rx ∧ t.ry = s.ry ∧ t.rinf = s.rinf) ∧
      (s.status.busy = true → step s' = .next t ∧
        t = { s with status := { s.status with ovr := true }, pending := rest, resp := some (.write .okay) })

/-- spec/10_state.md R43. -/
def Obligations.CmdWriteWhileBusyIsDropped : Prop :=
  ∀ (s : State) (v : Word32) (rest : List Event), s.pending = .write 0x008 32 v :: rest → s.status.busy = true →
    step s = .next { s with status := { s.status with ovr := true }, pending := rest, resp := some (.write .okay) }

/-- A step of the sequencer runs the command that SEQ and SNAP name, which is the decoded command word
(spec/10_state.md R42, R44, R45): with nothing pending, at a tick, at a delivered word; after the CMD write of its word;
and from withFetchWord. -/
def Obligations.StepRunsTheDecodedCommand : Prop :=
  ∀ (s : State) (i : Instr),
    (s.current = some i → s.pending = [] → step s = exec i s) ∧
    (∀ rest, s.current = some i → s.pending = .tick :: rest → step s = exec i { s with pending := rest }) ∧
    (∀ w rest, s.current = some i → s.rngReq = true → s.pending = .deliver w :: rest →
      step s = exec i { s with pending := rest, rngIn := some w }) ∧
    (∀ v, decode v = .instr i → s.status.busy = false → s.pending = [.write 0x008 32 v] →
      ∃ t, step s = .next t ∧ t.current = some i ∧ step t = exec i t) ∧
    (s.pending = [] → step (s.withFetchWord 32 (encode i).toNat) = exec i (s.withFetchWord 32 (encode i).toNat))

/-- No step ends in a fault or a refusal: a command error is an error completion, a bus error a response
(spec/60_exceptions.md R203, R208). -/
def Obligations.EveryStepAnswersNext : Prop := ∀ s : State, ∃ t, step s = .next t

/-- spec/10_state.md R29: "Only rule R42 changes CMD_LAST", reset apart (R54). -/
def Obligations.OnlyAnAcceptChangesCmdLast : Prop :=
  (∀ s : State, s.readReg .cmd = s.cmdLast) ∧ State.reset.cmdLast = 0 ∧
  ∀ s t : State, step s = .next t → t.cmdLast ≠ s.cmdLast →
    (∃ v rest, s.pending = .write 0x008 32 v :: rest ∧ s.status.busy = false ∧ t.cmdLast = v) ∨
    (∃ rest, s.pending = .reset :: rest ∧ t.cmdLast = 0)

/-- spec/10_state.md R44: Begin_op is a function of SNAP and the ROM alone. Two states with the same SNAP that begin the
same command end alike: both wait with the same context, or both commit the same outputs, or both fail with the same
code. (RES1 is an output of SIGN alone, whose begin step never commits.) -/
def Obligations.BeginStepReadsSnapOnly : Prop :=
  ∀ (i : Instr) (s s' t t' : State), s.snap = s'.snap → s.seq = .run i.op → s'.seq = .run i.op →
    exec i s = .next t → exec i s' = .next t' →
    t.seq = t'.seq ∧
    (t.seq = .idle → s.status.err = false → s'.status.err = false →
      t.status.err = t'.status.err ∧ (t.status.err = true → t.status.errcode = t'.status.errcode) ∧
      (t.status.err = false →
        (.res0 ∈ i.outRegs → t.res0 = t'.res0) ∧
        (.rx ∈ i.outRegs → t.rx = t'.rx) ∧ (.ry ∈ i.outRegs → t.ry = t'.ry) ∧
        (.rinf ∈ i.outRegs → t.rinf = t'.rinf) ∧ (.vok ∈ i.outRegs → t.status.vok = t'.status.vok)))

/-- spec/10_state.md R24, R50, spec/70_reset_and_hazards.md R237: a host write of an input register, PFLAGS or CTRL while a
command runs does not change what the command does. The write before the sequencer's turn and the write after it
give the same state, for the same free values drawn where the command fails (the counter `draws` makes them the same in
both orders: the model's choice, log entry 5) and for the same open value of SNAP after the command's end (the model
holds one value there: its choice, log entry 6). -/
def Obligations.InputWritesDoNotDisturbARunningCommand : Prop :=
  ∀ (s : State) (i : Instr) (off : Offset) (v : Word32), IsInputWrite off → s.current = some i →
    Host.Core.run Sys2Proof.core 2 { s with pending := [.write off 32 v, .tick] } =
      Host.Core.run Sys2Proof.core 2 { s with pending := [.tick, .write off 32 v] }

/-- spec/10_state.md R21, R34, spec/30_encoding.md R82: the frame of every command. Inputs, PFLAGS, CTRL and CMD_LAST are
never written; an output register outside the command's OutRegs keeps its value; VOK is written by VERIFY only. -/
def Obligations.CommandsWriteOnlyTheirOutRegs : Prop :=
  ∀ (i : Instr) (s t : State), exec i s = .next t →
    (t.opa = s.opa ∧ t.opb = s.opb ∧ t.opc = s.opc ∧ t.p1x = s.p1x ∧ t.p1y = s.p1y ∧ t.p2x = s.p2x ∧ t.p2y = s.p2y) ∧
    (t.p1inf = s.p1inf ∧ t.p2inf = s.p2inf ∧ t.ie = s.ie ∧ t.cmdLast = s.cmdLast ∧ t.status.ovr = s.status.ovr) ∧
    (.res0 ∉ i.outRegs → t.res0 = s.res0) ∧ (.res1 ∉ i.outRegs → t.res1 = s.res1) ∧
    (.rx ∉ i.outRegs → t.rx = s.rx) ∧ (.ry ∉ i.outRegs → t.ry = s.ry) ∧ (.rinf ∉ i.outRegs → t.rinf = s.rinf) ∧
    (i ≠ .verify → t.status.vok = s.status.vok) ∧
    t.pending = s.pending ∧ t.resp = s.resp

/-! ## Invariants -/

/-- The invariant holds at reset, whatever the environment will do. -/
def Obligations.ResetMeetsTheInvariant : Prop :=
  ∀ (events : List Event) (k : Nat), State.Inv { State.reset with pending := events, draws := k }

/-- Every step keeps the invariant (spec/10_state.md R31, R41, R52), from every state that meets it. -/
def Obligations.EveryStepKeepsTheInvariant : Prop :=
  ∀ s t : State, s.Inv → step s = .next t → t.Inv

/-- spec/10_state.md R31. -/
def Obligations.StatusInvariantsHoldInReachableStates : Prop :=
  ∀ s : State, Reachable s →
    (s.status.busy = true →
      s.status.done = false ∧ s.status.err = false ∧ s.status.errcode = 0 ∧ s.status.vok = false) ∧
    (s.status.errcode ≠ 0 ↔ s.status.err = true) ∧
    (s.status.rngwait = true → s.status.busy = true) ∧
    (s.status.busy = true ↔ s.seq ≠ .idle) ∧
    (s.status.vok = true → s.status.err = false ∧ s.cmdLast = 0x0000000A)

/-! ## Errors and the interrupt -/

/-- The errors a command can end with (spec/60_exceptions.md R200): code 1 from PADD, PDBL and SMUL, 2 from INV.P and
INV.N, 3 from DERIVE and SIGN; no other command fails. INVALID_INVERSE never arises inside a point or signature
command. -/
def Obligations.OnlyTheListedErrorsAreRaised : Prop :=
  ∀ (i : Instr) (s t : State), exec i s = .next t → s.status.err = false → t.status.err = true →
    mayRaise i t.status.errcode = true

/-- spec/60_exceptions.md R205: irq is the level CTRL.IE and STATUS.DONE; a commit or fail of any command raises it when
enabled, and a W1C write of DONE, an accept of a legal word, IE = 0 and reset clear it. -/
def Obligations.InterruptLevelFollowsDone : Prop :=
  (∀ s : State, s.irq = true ↔ s.ie = true ∧ s.status.done = true) ∧
  (∀ (i : Instr) (s t : State), s.current = some i → exec i s = .next t → t.seq = .idle → t.irq = s.ie) ∧
  (∀ (s : State) (v : Word32) (rest : List Event), ¬ LegalBits v → s.status.busy = false →
    s.pending = .write 0x008 32 v :: rest → ∃ t, step s = .next t ∧ t.irq = s.ie) ∧
  (∀ (s : State) (v : Word32) (rest : List Event), v.getLsbD 1 = true → s.pending = .write 0x00C 32 v :: rest →
    ∃ t, step s = .next t ∧ t.irq = false) ∧
  (∀ (s : State) (v : Word32) (rest : List Event), LegalBits v → s.status.busy = false →
    s.pending = .write 0x008 32 v :: rest → ∃ t, step s = .next t ∧ t.irq = false) ∧
  (∀ (s : State) (v : Word32) (rest : List Event), v.getLsbD 0 = false → s.pending = .write 0x004 32 v :: rest →
    ∃ t, step s = .next t ∧ t.irq = false) ∧
  (∀ (s : State) (rest : List Event), s.pending = .reset :: rest → ∃ t, step s = .next t ∧ t.irq = false)

/-! ## The register window -/

/-- spec/20_memory.md R63: what a read returns, and that a read changes no state but the model's response. -/
def Obligations.BusReadReturnsTheRegister : Prop :=
  (∀ (s : State) (off : Offset) (width : Nat) (rest : List Event), s.pending = .read off width :: rest → width ≠ 32 →
    step s = .next { s with pending := rest, resp := some (.read .slverr 0) }) ∧
  ∀ (s : State) (off : Offset) (rest : List Event), s.pending = .read off 32 :: rest →
    ∃ data, (off.toNat = 0x000 → data = some 0x45434453) ∧
      (off.toNat = 0x004 → data = some (if s.ie then 1 else 0)) ∧
      (off.toNat = 0x008 → data = some s.cmdLast) ∧
      (off.toNat = 0x00C → data = some (BitVec.ofNat 32 (s.status.busy.toNat + 2 * s.status.done.toNat +
        4 * s.status.err.toNat + 8 * s.status.vok.toNat + 16 * s.status.ovr.toNat + 32 * s.status.rngwait.toNat +
        256 * s.status.errcode.toNat))) ∧
      (off.toNat = 0x010 → data = some (BitVec.ofNat 32 (s.p1inf.toNat + 2 * s.p2inf.toNat))) ∧
      (off.toNat = 0x014 → data = some (if s.rinf then 1 else 0)) ∧
      (∀ r ∈ inputMap ++ readOnlyMap, ∀ i < 8, off.toNat = r.1 + 4 * i →
        data = some (BitVec.ofNat 32 ((s.wide r.2).toNat / 2 ^ (32 * i)))) ∧
      ((off.toNat % 4 ≠ 0 ∨ ReservedOffset off) → data = none) ∧
      step s = .next { s with
        pending := rest
        resp := some (match data with | some d => .read .okay d | none => .read .slverr 0) }

/-- spec/20_memory.md R64: what a legal write does. -/
def Obligations.BusWriteWritesTheRegister : Prop :=
  ∀ (s : State) (off : Offset) (v : Word32) (rest : List Event), s.pending = .write off 32 v :: rest →
    (off.toNat = 0x004 → step s = .next { s with ie := v.getLsbD 0, pending := rest, resp := some (.write .okay) }) ∧
    (off.toNat = 0x00C → step s = .next { s with
      status := { s.status with
        done := if v.getLsbD 1 then false else s.status.done
        err := if v.getLsbD 2 then false else s.status.err
        errcode := if v.getLsbD 2 then 0 else s.status.errcode
        ovr := if v.getLsbD 4 then false else s.status.ovr }
      pending := rest, resp := some (.write .okay) }) ∧
    (off.toNat = 0x010 → step s = .next { s with
      p1inf := v.getLsbD 0, p2inf := v.getLsbD 1, pending := rest, resp := some (.write .okay) }) ∧
    (∀ r ∈ inputMap, ∀ i < 8, off.toNat = r.1 + 4 * i →
      ∃ x : Word256, getWord x i = v ∧ (∀ j < 8, j ≠ i → getWord x j = getWord (s.wide r.2) j) ∧
        step s = .next { s.setInput r.2 x with pending := rest, resp := some (.write .okay) })

/-- spec/20_memory.md R65: the accesses that get SLVERR and change no state, and the reserved bits. -/
def Obligations.RefusedAccessesChangeNothing : Prop :=
  (∀ (s : State) (off : Offset) (width : Nat) (rest : List Event), s.pending = .read off width :: rest →
    (off.toNat % 4 ≠ 0 ∨ width ≠ 32 ∨ ReservedOffset off) →
    step s = .next { s with pending := rest, resp := some (.read .slverr 0) }) ∧
  (∀ (s : State) (off : Offset) (width : Nat) (v : Word32) (rest : List Event), s.pending = .write off width v :: rest →
    (off.toNat % 4 ≠ 0 ∨ width ≠ 32 ∨ ReservedOffset off ∨ ReadOnlyOffset off) →
    step s = .next { s with pending := rest, resp := some (.write .slverr) }) ∧
  (∀ (s : State) (r : RegSel) (v : Word32), r ∈ [RegSel.ctrl, .status, .pflags, .rflags] → ∀ b,
    (r = .ctrl → 1 ≤ b) → (r = .rflags → 1 ≤ b) → (r = .pflags → 2 ≤ b) → (r = .status → b = 6 ∨ b = 7 ∨ 12 ≤ b) →
    (s.readReg r).getLsbD b = false ∧ ((s.writeReg r v).readReg r).getLsbD b = false)

/-- spec/20_memory.md R66: the word at offset B + 4i of a 256-bit register is REG[32i+31:32i], and the register is the sum
of its eight words, least significant first (which is what GET256 assembles, spec/30_encoding.md R88). -/
def Obligations.WideRegisterIsTheSumOfItsWords : Prop :=
  ∀ (s : State) (r : Nat × WideReg), r ∈ inputMap ++ readOnlyMap →
    (∀ i < 8, s.busRead (BitVec.ofNat 12 (r.1 + 4 * i)) 32 = .read .okay ((s.wide r.2).extractLsb' (32 * i) 32)) ∧
    (∀ i < 8, (getWord (s.wide r.2) i).toNat = (s.wide r.2).toNat / 2 ^ (32 * i) % 2 ^ 32) ∧
    (s.wide r.2).toNat = ((List.range 8).map (fun i => (getWord (s.wide r.2) i).toNat * 2 ^ (32 * i))).sum ∧
    assemble ((List.range 8).map (getWord (s.wide r.2))) = (s.wide r.2).toNat

/-- spec/20_memory.md R67: writing one word changes only those 32 bits. -/
def Obligations.WordWriteChangesOnlyThatWord : Prop :=
  ∀ (reg : Word256) (i : Nat) (v : Word32), i < 8 →
    (∀ b, (setWord reg i v).getLsbD b =
      if 32 * i ≤ b ∧ b < 32 * i + 32 then v.getLsbD (b - 32 * i) else reg.getLsbD b)

/-- spec/30_encoding.md R88, LD256: the eight writes of the expansion leave the immediate in the register and change
nothing else. -/
def Obligations.Ld256LoadsTheRegister : Prop :=
  ∀ (s : State) (r : Nat × WideReg) (v : Word256), r ∈ inputMap →
    Host.Core.run Sys2Proof.core 8 { s with pending := ld256 r.2 v } =
      .next { s.setInput r.2 v with pending := [], resp := some (.write .okay) }

/-! ## Field commands -/

/-- INV.P and INV.N on a value that is not a multiple of the modulus (spec/40_field_arithmetic.md R102, R104): they commit
the unique inverse in RES0 and write nothing else but the flags of a commit. -/
def Obligations.InvCommitsTheUniqueInverse : Prop :=
  ∀ s : State,
    (s.snap.opa.toNat % dpP ≠ 0 → ∃ x t, exec .invP s = .next t ∧ IsInverse s.snap.opa.toNat dpP x ∧
      Committed s t (BitVec.ofNat 256 x) s.res1 s.rx s.ry s.rinf s.status.vok ∧ t.res0.toNat = x) ∧
    (s.snap.opa.toNat % dpN ≠ 0 → ∃ x t, exec .invN s = .next t ∧ IsInverse s.snap.opa.toNat dpN x ∧
      Committed s t (BitVec.ofNat 256 x) s.res1 s.rx s.ry s.rinf s.status.vok ∧ t.res0.toNat = x)

/-- INV.P and INV.N on a multiple of the modulus (spec/40_field_arithmetic.md R104): INVALID_INVERSE, code 2. -/
def Obligations.InvOfZeroFailsWithCodeTwo : Prop :=
  ∀ s : State,
    (s.snap.opa.toNat % dpP = 0 → ∃ t, exec .invP s = .next t ∧ Failed s t [.res0] 2) ∧
    (s.snap.opa.toNat % dpN = 0 → ∃ t, exec .invN s = .next t ∧ Failed s t [.res0] 2)

/-- EXP.P and EXP.N (spec/40_field_arithmetic.md R103, R105): they always commit a^e mod m in RES0. -/
def Obligations.ExpCommitsThePower : Prop :=
  ∀ s : State,
    (∃ t, exec .expP s = .next t ∧
      Committed s t (BitVec.ofNat 256 (s.snap.opa.toNat ^ s.snap.opb.toNat % dpP)) s.res1 s.rx s.ry s.rinf s.status.vok ∧
      t.res0.toNat = s.snap.opa.toNat ^ s.snap.opb.toNat % dpP) ∧
    (∃ t, exec .expN s = .next t ∧
      Committed s t (BitVec.ofNat 256 (s.snap.opa.toNat ^ s.snap.opb.toNat % dpN)) s.res1 s.rx s.ry s.rinf s.status.vok ∧
      t.res0.toNat = s.snap.opa.toNat ^ s.snap.opb.toNat % dpN)

/-! ## Points -/

/-- spec/41_point_ops.md R121. -/
def Obligations.OnCurveIsTheCurveEquation : Prop :=
  onCurve .inf = true ∧
  ∀ x y : Nat, onCurve (.fin x y) = true ↔
    x < dpP ∧ y < dpP ∧ ((y : Int) * y - ((x : Int) * x * x + 0 * x + 7)) % (dpP : Int) = 0

/-- spec/41_point_ops.md R123. -/
def Obligations.IdentityMuxSelects : Prop :=
  (∀ Q, idMux .inf Q = some Q) ∧ (∀ P, P ≠ .inf → idMux P .inf = some P) ∧
  (∀ P Q, P ≠ .inf → Q ≠ .inf → idMux P Q = none)

/-- spec/41_point_ops.md R124, its steps in order, with the slopes and results as congruences. -/
def Obligations.AddPointsFollowsTheGroupLaw : Prop :=
  (∀ P Q, ¬(onCurve P = true ∧ onCurve Q = true) → addPoints P Q = .error .pointNotOnCurve) ∧
  (∀ Q, onCurve Q = true → addPoints .inf Q = .ok Q ∧ addPoints Q .inf = .ok Q) ∧
  ∀ xP yP xQ yQ : Nat, onCurve (.fin xP yP) = true → onCurve (.fin xQ yQ) = true →
    (xP = xQ → (yP + yQ) % dpP = 0 → addPoints (.fin xP yP) (.fin xQ yQ) = .ok .inf) ∧
    (xP = xQ → yP = yQ → yP = 0 → addPoints (.fin xP yP) (.fin xQ yQ) = .ok .inf) ∧
    (¬(xP = xQ ∧ (yP + yQ) % dpP = 0) → ∃ lam xR yR : Nat, lam < dpP ∧ xR < dpP ∧ yR < dpP ∧
      addPoints (.fin xP yP) (.fin xQ yQ) = .ok (.fin xR yR) ∧
      (xP = xQ ∧ yP = yQ → ((2 * yP * lam : Int) - (3 * xP * xP + dpA)) % dpP = 0) ∧
      (¬(xP = xQ ∧ yP = yQ) → (((xP : Int) - xQ) * lam - ((yP : Int) - yQ)) % dpP = 0) ∧
      ((xR : Int) - ((lam : Int) * lam - xP - xQ)) % dpP = 0 ∧
      ((yR : Int) - ((lam : Int) * ((xP : Int) - xR) - yP)) % dpP = 0)

/-- spec/41_point_ops.md R125. The checked points are those for which AddPoints goes on. -/
def Obligations.AddPointsPropertiesOnTheCurve : Prop :=
  (∀ P Q, onCurve P = true → onCurve Q = true →
    (∃ R, addPoints P Q = .ok R ∧ onCurve R = true ∧ ∀ x y, R = .fin x y → x < dpP ∧ y < dpP) ∧
    addPoints P Q = addPoints Q P) ∧
  (∀ x y, onCurve (.fin x y) = true → y ≠ 0 ∧ (2 * y) % dpP ≠ 0) ∧
  (∀ xP yP xQ yQ, onCurve (.fin xP yP) = true → onCurve (.fin xQ yQ) = true →
    ¬(xP = xQ ∧ (yP + yQ) % dpP = 0) → ¬(xP = xQ ∧ yP = yQ) → modSub xP xQ dpP % dpP ≠ 0) ∧
  ∀ P Q c, addPoints P Q = .error c → c = .pointNotOnCurve

/-- spec/41_point_ops.md R122: the negative of every point, the finite ones with a y of any size included, and that it is
the point which AddPoints adds to a checked point to give INF. -/
def Obligations.NegationIsTheInversePoint : Prop :=
  negPoint .inf = .inf ∧
  (∀ x y : Nat, ∃ y' : Nat, negPoint (.fin x y) = .fin x y' ∧ y' < dpP ∧ ((y' : Int) = ((dpP : Int) - y) % dpP)) ∧
  ∀ Q, onCurve Q = true → onCurve (negPoint Q) = true ∧ addPoints Q (negPoint Q) = .ok .inf ∧
    ∀ R, addPoints Q R = .ok .inf → R = negPoint Q

/-- PADD and PDBL on checked points (spec/41_point_ops.md R126, R127, R128): they commit the sum and the double in RX, RY
and RINF, and nothing else but the flags of a commit. PDBL reads P1 only. -/
def Obligations.PointCommandsCommitTheSum : Prop :=
  ∀ s : State, onCurve s.snap.p1 = true →
    (onCurve s.snap.p2 = true → ∃ R t, addPoints s.snap.p1 s.snap.p2 = .ok R ∧ exec .padd s = .next t ∧
      CommittedPoint s t R) ∧
    (∃ R t, addPoints s.snap.p1 s.snap.p1 = .ok R ∧ exec .pdbl s = .next t ∧ CommittedPoint s t R)

/-- PADD, PDBL and SMUL on a point off the curve (spec/41_point_ops.md R127, R128, spec/42_scalar_multiplier.md R142):
POINT_NOT_ON_CURVE, code 1, for SMUL whatever k is. -/
def Obligations.OffCurvePointsFailWithCodeOne : Prop :=
  ∀ s : State,
    (¬(onCurve s.snap.p1 = true ∧ onCurve s.snap.p2 = true) →
      ∃ t, exec .padd s = .next t ∧ Failed s t [.rx, .ry, .rinf] 1) ∧
    (onCurve s.snap.p1 = false →
      (∃ t, exec .pdbl s = .next t ∧ Failed s t [.rx, .ry, .rinf] 1) ∧
      (∃ t, exec .smul s = .next t ∧ Failed s t [.rx, .ry, .rinf] 1))

/-! ## Scalar multiplication -/

/-- SMUL on a checked point (spec/42_scalar_multiplier.md R141, R142): it commits Q added to itself k times, for every
256-bit k. -/
def Obligations.SmulCommitsTheRepeatedSum : Prop :=
  ∀ s : State, onCurve s.snap.p1 = true →
    ∃ R t, repeatAdd s.snap.opa.toNat s.snap.p1 = .ok R ∧ onCurve R = true ∧ exec .smul s = .next t ∧
      CommittedPoint s t R

/-- spec/42_scalar_multiplier.md R141. -/
def Obligations.MulProperties : Prop :=
  ∀ Q, onCurve Q = true →
    (∀ k, ∃ R, mulPoint k Q = .ok R ∧ onCurve R = true) ∧
    mulPoint 0 Q = .ok .inf ∧ (∀ k, mulPoint k .inf = .ok .inf) ∧ mulPoint 1 Q = .ok Q ∧
    (∀ k, mulPoint k Q = repeatAdd k Q) ∧
    mulPoint dpN Q = .ok .inf ∧ (∀ k, mulPoint k Q = mulPoint (k % dpN) Q) ∧
    (∀ k, Q ≠ .inf → 1 ≤ k → k ≤ dpN - 1 → mulPoint k Q ≠ .ok .inf) ∧
    (∀ k R, k ≤ dpN → mulPoint k Q = .ok R → mulPoint (dpN - k) Q = .ok (negPoint R))

/-! ## Keys -/

/-- GENPRIV's attempt (spec/43_key_pair_gen.md R151, R152): an acceptable word is the key; any other leaves no trace and the
command waits on. -/
def Obligations.GenprivCommitsTheAcceptedWord : Prop :=
  ∀ (s : State) (w : Word256), s.seq = .waitRng .genpriv → s.rngIn = some w →
    (1 ≤ w.toNat ∧ w.toNat ≤ dpN - 1 → ∃ t, exec .genpriv s = .next t ∧
      Committed { s with rngIn := none } t w s.res1 s.rx s.ry s.rinf s.status.vok) ∧
    (¬(1 ≤ w.toNat ∧ w.toNat ≤ dpN - 1) →
      exec .genpriv s = .next { s with rngIn := none, status := { s.status with rngwait := true } })

/-- DERIVE (spec/43_key_pair_gen.md R153): a d in [1, n − 1] commits d·G, a finite point on the curve, with RINF = 0; any
other d fails with code 3. -/
def Obligations.DeriveCommitsThePublicKey : Prop :=
  ∀ s : State,
    (1 ≤ s.snap.opa.toNat ∧ s.snap.opa.toNat ≤ dpN - 1 → ∃ x y t,
      mulPoint s.snap.opa.toNat baseG = .ok (.fin x y) ∧ onCurve (.fin x y) = true ∧ exec .derive s = .next t ∧
      Committed s t s.res0 s.res1 (BitVec.ofNat 256 x) (BitVec.ofNat 256 y) false s.status.vok) ∧
    (¬(1 ≤ s.snap.opa.toNat ∧ s.snap.opa.toNat ≤ dpN - 1) →
      ∃ t, exec .derive s = .next t ∧ Failed s t [.rx, .ry, .rinf] 3)

/-- KEYPAIR's attempt (spec/43_key_pair_gen.md R154): an acceptable word d commits d and d·G, finite and on the curve; any
other leaves no trace and the command waits on. -/
def Obligations.KeypairCommitsAMatchingPair : Prop :=
  ∀ (s : State) (w : Word256), s.seq = .waitRng .keypair → s.rngIn = some w →
    (1 ≤ w.toNat ∧ w.toNat ≤ dpN - 1 → ∃ x y t,
      mulPoint w.toNat baseG = .ok (.fin x y) ∧ onCurve (.fin x y) = true ∧ exec .keypair s = .next t ∧
      Committed { s with rngIn := none } t w s.res1 (BitVec.ofNat 256 x) (BitVec.ofNat 256 y) false s.status.vok) ∧
    (¬(1 ≤ w.toNat ∧ w.toNat ≤ dpN - 1) →
      exec .keypair s = .next { s with rngIn := none, status := { s.status with rngwait := true } })

/-- The begin steps of the commands that use randomness (spec/43_key_pair_gen.md R152, R154, spec/44_ecdsa_signer.md R161):
they request a word; SIGN first checks its key and fails with code 3, with no request. -/
def Obligations.RandomCommandsBeginByWaiting : Prop :=
  ∀ s : State,
    (s.seq = .run .genpriv →
      exec .genpriv s = .next { s with seq := .waitRng .genpriv, status := { s.status with rngwait := true } }) ∧
    (s.seq = .run .keypair →
      exec .keypair s = .next { s with seq := .waitRng .keypair, status := { s.status with rngwait := true } }) ∧
    (s.seq = .run .sign → 1 ≤ s.snap.opb.toNat → s.snap.opb.toNat ≤ dpN - 1 →
      exec .sign s = .next { s with
        seq := .waitRng (.sign s.snap.opa s.snap.opb), status := { s.status with rngwait := true } }) ∧
    (s.seq = .run .sign → ¬(1 ≤ s.snap.opb.toNat ∧ s.snap.opb.toNat ≤ dpN - 1) →
      ∃ t, exec .sign s = .next t ∧ Failed s t [.res0, .res1] 3 ∧ t.rngReq = false)

/-! ## Signing and verifying -/

/-- Attempt_SIGN (spec/44_ecdsa_signer.md R162): the word is the nonce k if it is in [1, n − 1]; r is the x coordinate of
k·G mod n and s is k⁻¹·(z + r·d) mod n; r = 0 or s = 0 or a rejected word waits for the next one, with {z, d} only. -/
def Obligations.SignAttemptCommitsTheSignature : Prop :=
  ∀ (s : State) (z d w : Word256), s.seq = .waitRng (.sign z d) → s.rngIn = some w →
    (¬(1 ≤ w.toNat ∧ w.toNat ≤ dpN - 1) →
      exec .sign s = .next { s with rngIn := none, status := { s.status with rngwait := true } }) ∧
    (1 ≤ w.toNat ∧ w.toNat ≤ dpN - 1 → ∃ xP yP kInv,
      mulPoint w.toNat baseG = .ok (.fin xP yP) ∧ IsInverse w.toNat dpN kInv ∧
      (xP % dpN = 0 ∨ kInv * ((z.toNat + xP % dpN * d.toNat) % dpN) % dpN = 0 →
        exec .sign s = .next { s with rngIn := none, status := { s.status with rngwait := true } }) ∧
      (xP % dpN ≠ 0 → kInv * ((z.toNat + xP % dpN * d.toNat) % dpN) % dpN ≠ 0 → ∃ t, exec .sign s = .next t ∧
        Committed { s with rngIn := none } t (BitVec.ofNat 256 (xP % dpN))
          (BitVec.ofNat 256 (kInv * ((z.toNat + xP % dpN * d.toNat) % dpN) % dpN)) s.rx s.ry s.rinf s.status.vok))

/-- A committed signature is in range (spec/44_ecdsa_signer.md R162, corner cases). -/
def Obligations.CommittedSignaturesAreInRange : Prop :=
  ∀ (s t : State) (z d : Word256), s.seq = .waitRng (.sign z d) → exec .sign s = .next t → t.seq = .idle →
    1 ≤ t.res0.toNat ∧ t.res0.toNat ≤ dpN - 1 ∧ 1 ≤ t.res1.toNat ∧ t.res1.toNat ≤ dpN - 1

/-- The nonce leaves no trace in a failed attempt (spec/44_ecdsa_signer.md R163, spec/10_state.md R51): two attempts that
both go on waiting end in the same state, whatever their words were. -/
def Obligations.FailedAttemptsLeaveNoTrace : Prop :=
  ∀ (i : Instr) (s t t' : State) (w w' : Word256), s.rngReq = true → s.current = some i →
    exec i { s with rngIn := some w } = .next t → exec i { s with rngIn := some w' } = .next t' →
    t.rngReq = true → t'.rngReq = true → t = t' ∧ t.seq = s.seq ∧ t.rngIn = none

/-- VERIFY (spec/45_ecdsa_verifier.md R171): malformed inputs commit VOK = 0; otherwise VOK says whether r is the x
coordinate of u1·G + u2·H mod n. Only VOK and the flags of a commit are written. -/
def Obligations.VerifyCommitsTheVerdict : Prop :=
  ∀ s : State,
    (s.snap.p1 = .inf ∨ onCurve s.snap.p1 = false ∨ ¬(1 ≤ s.snap.opb.toNat ∧ s.snap.opb.toNat ≤ dpN - 1) ∨
        ¬(1 ≤ s.snap.opc.toNat ∧ s.snap.opc.toNat ≤ dpN - 1) →
      ∃ t, exec .verify s = .next t ∧ Committed s t s.res0 s.res1 s.rx s.ry s.rinf false) ∧
    (s.snap.p1 ≠ .inf → onCurve s.snap.p1 = true → 1 ≤ s.snap.opb.toNat → s.snap.opb.toNat ≤ dpN - 1 →
        1 ≤ s.snap.opc.toNat → s.snap.opc.toNat ≤ dpN - 1 →
      ∃ w U1 U2 W t, IsInverse s.snap.opc.toNat dpN w ∧
        mulPoint (w * s.snap.opa.toNat % dpN) baseG = .ok U1 ∧
        mulPoint (w * s.snap.opb.toNat % dpN) s.snap.p1 = .ok U2 ∧ addPoints U1 U2 = .ok W ∧
        exec .verify s = .next t ∧
        Committed s t s.res0 s.res1 s.rx s.ry s.rinf (verdict s.snap.opb.toNat W))

/-- spec/45_ecdsa_verifier.md R172: VERIFY always commits and never produces an error code; a malformed input gives
VOK = 0. -/
def Obligations.VerifyNeverFails : Prop :=
  ∀ s : State, ∃ t, exec .verify s = .next t ∧ t.seq = .idle ∧ t.status.done = true ∧
    t.status.err = s.status.err ∧ t.status.errcode = s.status.errcode ∧ t.draws = s.draws ∧
    (s.snap.p1 = .inf ∨ onCurve s.snap.p1 = false ∨ ¬(1 ≤ s.snap.opb.toNat ∧ s.snap.opb.toNat ≤ dpN - 1) ∨
      ¬(1 ≤ s.snap.opc.toNat ∧ s.snap.opc.toNat ≤ dpN - 1) → t.status.vok = false)

/-- spec/44_ecdsa_signer.md R164: a signature that SIGN commits for (z, d) is accepted by VERIFY for (z, d·G). -/
def Obligations.SignVerifyRoundTrip : Prop :=
  ∀ (s t v : State) (z d : Word256) (H : Point), s.seq = .waitRng (.sign z d) → 1 ≤ d.toNat → d.toNat ≤ dpN - 1 →
    exec .sign s = .next t → t.seq = .idle → mulPoint d.toNat baseG = .ok H →
    v.snap.opa = z → v.snap.opb = t.res0 → v.snap.opc = t.res1 → v.snap.p1 = H →
    ∃ u, exec .verify v = .next u ∧ u.status.vok = true

/-- spec/45_ecdsa_verifier.md R173: if (r, s) verifies for (z, H), so does (r, n − s). -/
def Obligations.NegatedSignatureVerifiesToo : Prop :=
  ∀ v t v' : State, exec .verify v = .next t → t.status.vok = true →
    v'.snap = { v.snap with opc := BitVec.ofNat 256 (dpN - v.snap.opc.toNat) } →
    ∃ t', exec .verify v' = .next t' ∧ t'.status.vok = true

/-! ## The randomness port -/

/-- spec/60_exceptions.md R213: `rng_req` is up exactly in WAITRNG; a word delivered while it is down does not exist, a word
delivered while it is up is consumed by exactly one step, and the word is the one that step's command reads. -/
def Obligations.DeliveredWordsAreConsumedOnce : Prop :=
  (∀ s : State, s.rngReq = true ↔ ∃ w, s.seq = .waitRng w) ∧
  (∀ (s : State) (w : Word256) (rest : List Event), s.pending = .deliver w :: rest → s.rngReq = false →
    step s = .next { s with pending := rest }) ∧
  (∀ (s t : State) (w : Word256) (rest : List Event), s.pending = .deliver w :: rest → s.rngReq = true →
    step s = .next t → t.rngIn = none ∧ t.pending = rest ∧
      ∃ i, s.current = some i ∧ exec i { s with pending := rest, rngIn := some w } = .next t)

/-- A waiting command ends only by a delivered word or reset (spec/70_reset_and_hazards.md R240): every other step leaves
SEQ, BUSY and RNGWAIT as they are. -/
def Obligations.WaitingLastsUntilAWordOrReset : Prop :=
  ∀ (s t : State), s.Inv → s.rngReq = true → step s = .next t → t.seq ≠ s.seq ∨ t.status.busy = false →
    (∃ w rest, s.pending = .deliver w :: rest) ∨ (∃ rest, s.pending = .reset :: rest)

/-- With no word and no event a waiting or idle block stays as it is (spec/70_reset_and_hazards.md R240, R244,
spec/60_exceptions.md R216). -/
def Obligations.NothingPendingNothingMoves : Prop :=
  ∀ s : State, s.Inv → s.pending = [] → (s.seq = .idle ∨ s.rngReq = true) →
    ∀ k, Host.Core.run Sys2Proof.core k s = .next s

/-! ## Platform -/

/-- spec/60_exceptions.md R214: a step of one instance, a host access and a delivered word leave every other instance as it
is; a host access reaches an instance only inside its 4 KiB window (spec/20_memory.md R60). -/
def Obligations.InstancesAreIndependent : Prop :=
  ∀ (P : Platform) (i j : Nat), i ≠ j →
    (P.advance i).instances[j]? = P.instances[j]? ∧
    (∀ w, (P.deliver i w).instances[j]? = P.instances[j]?) ∧
    (∀ (p : Placed) (addr width : Nat) (v : Word32), (addr < p.base ∨ p.base + 4096 ≤ addr) →
      Placed.hostWrite addr width v p = p ∧ Placed.hostRead addr width p = p)
end

