-- ==== Sys2Proof/Laws/State.lean ====
section
/-! SUPPORT. One lemma per field of State for each of its updates, so that no later proof unfolds a record update. -/

namespace Sys2Proof.Machine

/-! ### commit (spec/10_state.md R46) -/

@[simp] theorem commit_opa (s : State) (o : Outs) : (s.commit o).opa = s.opa := rfl
@[simp] theorem commit_opb (s : State) (o : Outs) : (s.commit o).opb = s.opb := rfl
@[simp] theorem commit_opc (s : State) (o : Outs) : (s.commit o).opc = s.opc := rfl
@[simp] theorem commit_p1x (s : State) (o : Outs) : (s.commit o).p1x = s.p1x := rfl
@[simp] theorem commit_p1y (s : State) (o : Outs) : (s.commit o).p1y = s.p1y := rfl
@[simp] theorem commit_p2x (s : State) (o : Outs) : (s.commit o).p2x = s.p2x := rfl
@[simp] theorem commit_p2y (s : State) (o : Outs) : (s.commit o).p2y = s.p2y := rfl
@[simp] theorem commit_p1inf (s : State) (o : Outs) : (s.commit o).p1inf = s.p1inf := rfl
@[simp] theorem commit_p2inf (s : State) (o : Outs) : (s.commit o).p2inf = s.p2inf := rfl
@[simp] theorem commit_res0 (s : State) (o : Outs) : (s.commit o).res0 = o.res0.getD s.res0 := rfl
@[simp] theorem commit_res1 (s : State) (o : Outs) : (s.commit o).res1 = o.res1.getD s.res1 := rfl
@[simp] theorem commit_rx (s : State) (o : Outs) : (s.commit o).rx = (o.point.map Point.outX).getD s.rx := rfl
@[simp] theorem commit_ry (s : State) (o : Outs) : (s.commit o).ry = (o.point.map Point.outY).getD s.ry := rfl
@[simp] theorem commit_rinf (s : State) (o : Outs) : (s.commit o).rinf = (o.point.map Point.isInf).getD s.rinf := rfl
@[simp] theorem commit_ie (s : State) (o : Outs) : (s.commit o).ie = s.ie := rfl
@[simp] theorem commit_cmdLast (s : State) (o : Outs) : (s.commit o).cmdLast = s.cmdLast := rfl
@[simp] theorem commit_status (s : State) (o : Outs) : (s.commit o).status = { s.status.ended with vok := o.vok.getD s.status.vok } := rfl
@[simp] theorem commit_seq (s : State) (o : Outs) : (s.commit o).seq = .idle := rfl
@[simp] theorem commit_snap (s : State) (o : Outs) : (s.commit o).snap = .discarded := rfl
@[simp] theorem commit_rngIn (s : State) (o : Outs) : (s.commit o).rngIn = s.rngIn := rfl
@[simp] theorem commit_pending (s : State) (o : Outs) : (s.commit o).pending = s.pending := rfl
@[simp] theorem commit_resp (s : State) (o : Outs) : (s.commit o).resp = s.resp := rfl
@[simp] theorem commit_draws (s : State) (o : Outs) : (s.commit o).draws = s.draws := rfl

/-! ### drawing registers (spec/10_state.md R47) -/

@[simp] theorem drawReg_opa (s : State) (r : OutReg) : (s.drawReg r).opa = s.opa := by cases r <;> rfl
@[simp] theorem drawReg_opb (s : State) (r : OutReg) : (s.drawReg r).opb = s.opb := by cases r <;> rfl
@[simp] theorem drawReg_opc (s : State) (r : OutReg) : (s.drawReg r).opc = s.opc := by cases r <;> rfl
@[simp] theorem drawReg_p1x (s : State) (r : OutReg) : (s.drawReg r).p1x = s.p1x := by cases r <;> rfl
@[simp] theorem drawReg_p1y (s : State) (r : OutReg) : (s.drawReg r).p1y = s.p1y := by cases r <;> rfl
@[simp] theorem drawReg_p2x (s : State) (r : OutReg) : (s.drawReg r).p2x = s.p2x := by cases r <;> rfl
@[simp] theorem drawReg_p2y (s : State) (r : OutReg) : (s.drawReg r).p2y = s.p2y := by cases r <;> rfl
@[simp] theorem drawReg_p1inf (s : State) (r : OutReg) : (s.drawReg r).p1inf = s.p1inf := by cases r <;> rfl
@[simp] theorem drawReg_p2inf (s : State) (r : OutReg) : (s.drawReg r).p2inf = s.p2inf := by cases r <;> rfl
@[simp] theorem drawReg_ie (s : State) (r : OutReg) : (s.drawReg r).ie = s.ie := by cases r <;> rfl
@[simp] theorem drawReg_cmdLast (s : State) (r : OutReg) : (s.drawReg r).cmdLast = s.cmdLast := by cases r <;> rfl
@[simp] theorem drawReg_status (s : State) (r : OutReg) : (s.drawReg r).status = s.status := by cases r <;> rfl
@[simp] theorem drawReg_seq (s : State) (r : OutReg) : (s.drawReg r).seq = s.seq := by cases r <;> rfl
@[simp] theorem drawReg_snap (s : State) (r : OutReg) : (s.drawReg r).snap = s.snap := by cases r <;> rfl
@[simp] theorem drawReg_rngIn (s : State) (r : OutReg) : (s.drawReg r).rngIn = s.rngIn := by cases r <;> rfl
@[simp] theorem drawReg_pending (s : State) (r : OutReg) : (s.drawReg r).pending = s.pending := by cases r <;> rfl
@[simp] theorem drawReg_resp (s : State) (r : OutReg) : (s.drawReg r).resp = s.resp := by cases r <;> rfl
@[simp] theorem drawRegs_opa (s : State) (rs : List OutReg) : (s.drawRegs rs).opa = s.opa := by
  induction rs generalizing s with
  | nil => rfl
  | cons r rs ih => rw [State.drawRegs, ih, drawReg_opa]
@[simp] theorem drawRegs_opb (s : State) (rs : List OutReg) : (s.drawRegs rs).opb = s.opb := by
  induction rs generalizing s with
  | nil => rfl
  | cons r rs ih => rw [State.drawRegs, ih, drawReg_opb]
@[simp] theorem drawRegs_opc (s : State) (rs : List OutReg) : (s.drawRegs rs).opc = s.opc := by
  induction rs generalizing s with
  | nil => rfl
  | cons r rs ih => rw [State.drawRegs, ih, drawReg_opc]
@[simp] theorem drawRegs_p1x (s : State) (rs : List OutReg) : (s.drawRegs rs).p1x = s.p1x := by
  induction rs generalizing s with
  | nil => rfl
  | cons r rs ih => rw [State.drawRegs, ih, drawReg_p1x]
@[simp] theorem drawRegs_p1y (s : State) (rs : List OutReg) : (s.drawRegs rs).p1y = s.p1y := by
  induction rs generalizing s with
  | nil => rfl
  | cons r rs ih => rw [State.drawRegs, ih, drawReg_p1y]
@[simp] theorem drawRegs_p2x (s : State) (rs : List OutReg) : (s.drawRegs rs).p2x = s.p2x := by
  induction rs generalizing s with
  | nil => rfl
  | cons r rs ih => rw [State.drawRegs, ih, drawReg_p2x]
@[simp] theorem drawRegs_p2y (s : State) (rs : List OutReg) : (s.drawRegs rs).p2y = s.p2y := by
  induction rs generalizing s with
  | nil => rfl
  | cons r rs ih => rw [State.drawRegs, ih, drawReg_p2y]
@[simp] theorem drawRegs_p1inf (s : State) (rs : List OutReg) : (s.drawRegs rs).p1inf = s.p1inf := by
  induction rs generalizing s with
  | nil => rfl
  | cons r rs ih => rw [State.drawRegs, ih, drawReg_p1inf]
@[simp] theorem drawRegs_p2inf (s : State) (rs : List OutReg) : (s.drawRegs rs).p2inf = s.p2inf := by
  induction rs generalizing s with
  | nil => rfl
  | cons r rs ih => rw [State.drawRegs, ih, drawReg_p2inf]
@[simp] theorem drawRegs_ie (s : State) (rs : List OutReg) : (s.drawRegs rs).ie = s.ie := by
  induction rs generalizing s with
  | nil => rfl
  | cons r rs ih => rw [State.drawRegs, ih, drawReg_ie]
@[simp] theorem drawRegs_cmdLast (s : State) (rs : List OutReg) : (s.drawRegs rs).cmdLast = s.cmdLast := by
  induction rs generalizing s with
  | nil => rfl
  | cons r rs ih => rw [State.drawRegs, ih, drawReg_cmdLast]
@[simp] theorem drawRegs_status (s : State) (rs : List OutReg) : (s.drawRegs rs).status = s.status := by
  induction rs generalizing s with
  | nil => rfl
  | cons r rs ih => rw [State.drawRegs, ih, drawReg_status]
@[simp] theorem drawRegs_seq (s : State) (rs : List OutReg) : (s.drawRegs rs).seq = s.seq := by
  induction rs generalizing s with
  | nil => rfl
  | cons r rs ih => rw [State.drawRegs, ih, drawReg_seq]
@[simp] theorem drawRegs_snap (s : State) (rs : List OutReg) : (s.drawRegs rs).snap = s.snap := by
  induction rs generalizing s with
  | nil => rfl
  | cons r rs ih => rw [State.drawRegs, ih, drawReg_snap]
@[simp] theorem drawRegs_rngIn (s : State) (rs : List OutReg) : (s.drawRegs rs).rngIn = s.rngIn := by
  induction rs generalizing s with
  | nil => rfl
  | cons r rs ih => rw [State.drawRegs, ih, drawReg_rngIn]
@[simp] theorem drawRegs_pending (s : State) (rs : List OutReg) : (s.drawRegs rs).pending = s.pending := by
  induction rs generalizing s with
  | nil => rfl
  | cons r rs ih => rw [State.drawRegs, ih, drawReg_pending]
@[simp] theorem drawRegs_resp (s : State) (rs : List OutReg) : (s.drawRegs rs).resp = s.resp := by
  induction rs generalizing s with
  | nil => rfl
  | cons r rs ih => rw [State.drawRegs, ih, drawReg_resp]

/-! ### A register that is not drawn keeps its value (spec/10_state.md R47) -/

theorem drawRegs_res0 (s : State) (rs : List OutReg) (h : OutReg.res0 ∉ rs) : (s.drawRegs rs).res0 = s.res0 := by
  induction rs generalizing s with
  | nil => rfl
  | cons r rs ih =>
    rw [List.mem_cons, not_or] at h
    rw [State.drawRegs, ih _ h.2]
    cases r <;> first | rfl | exact absurd rfl h.1
theorem drawRegs_res1 (s : State) (rs : List OutReg) (h : OutReg.res1 ∉ rs) : (s.drawRegs rs).res1 = s.res1 := by
  induction rs generalizing s with
  | nil => rfl
  | cons r rs ih =>
    rw [List.mem_cons, not_or] at h
    rw [State.drawRegs, ih _ h.2]
    cases r <;> first | rfl | exact absurd rfl h.1
theorem drawRegs_rx (s : State) (rs : List OutReg) (h : OutReg.rx ∉ rs) : (s.drawRegs rs).rx = s.rx := by
  induction rs generalizing s with
  | nil => rfl
  | cons r rs ih =>
    rw [List.mem_cons, not_or] at h
    rw [State.drawRegs, ih _ h.2]
    cases r <;> first | rfl | exact absurd rfl h.1
theorem drawRegs_ry (s : State) (rs : List OutReg) (h : OutReg.ry ∉ rs) : (s.drawRegs rs).ry = s.ry := by
  induction rs generalizing s with
  | nil => rfl
  | cons r rs ih =>
    rw [List.mem_cons, not_or] at h
    rw [State.drawRegs, ih _ h.2]
    cases r <;> first | rfl | exact absurd rfl h.1
theorem drawRegs_rinf (s : State) (rs : List OutReg) (h : OutReg.rinf ∉ rs) : (s.drawRegs rs).rinf = s.rinf := by
  induction rs generalizing s with
  | nil => rfl
  | cons r rs ih =>
    rw [List.mem_cons, not_or] at h
    rw [State.drawRegs, ih _ h.2]
    cases r <;> first | rfl | exact absurd rfl h.1

/-! ### fail (spec/10_state.md R47) -/

@[simp] theorem fail_opa (s : State) (rs : List OutReg) (c : ErrCode) : (s.fail rs c).opa = s.opa := drawRegs_opa s rs
@[simp] theorem fail_opb (s : State) (rs : List OutReg) (c : ErrCode) : (s.fail rs c).opb = s.opb := drawRegs_opb s rs
@[simp] theorem fail_opc (s : State) (rs : List OutReg) (c : ErrCode) : (s.fail rs c).opc = s.opc := drawRegs_opc s rs
@[simp] theorem fail_p1x (s : State) (rs : List OutReg) (c : ErrCode) : (s.fail rs c).p1x = s.p1x := drawRegs_p1x s rs
@[simp] theorem fail_p1y (s : State) (rs : List OutReg) (c : ErrCode) : (s.fail rs c).p1y = s.p1y := drawRegs_p1y s rs
@[simp] theorem fail_p2x (s : State) (rs : List OutReg) (c : ErrCode) : (s.fail rs c).p2x = s.p2x := drawRegs_p2x s rs
@[simp] theorem fail_p2y (s : State) (rs : List OutReg) (c : ErrCode) : (s.fail rs c).p2y = s.p2y := drawRegs_p2y s rs
@[simp] theorem fail_p1inf (s : State) (rs : List OutReg) (c : ErrCode) : (s.fail rs c).p1inf = s.p1inf := drawRegs_p1inf s rs
@[simp] theorem fail_p2inf (s : State) (rs : List OutReg) (c : ErrCode) : (s.fail rs c).p2inf = s.p2inf := drawRegs_p2inf s rs
@[simp] theorem fail_ie (s : State) (rs : List OutReg) (c : ErrCode) : (s.fail rs c).ie = s.ie := drawRegs_ie s rs
@[simp] theorem fail_cmdLast (s : State) (rs : List OutReg) (c : ErrCode) : (s.fail rs c).cmdLast = s.cmdLast := drawRegs_cmdLast s rs
@[simp] theorem fail_status (s : State) (rs : List OutReg) (c : ErrCode) : (s.fail rs c).status = (s.status.withError c).ended := rfl
@[simp] theorem fail_seq (s : State) (rs : List OutReg) (c : ErrCode) : (s.fail rs c).seq = .idle := rfl
@[simp] theorem fail_snap (s : State) (rs : List OutReg) (c : ErrCode) : (s.fail rs c).snap = .discarded := rfl
@[simp] theorem fail_rngIn (s : State) (rs : List OutReg) (c : ErrCode) : (s.fail rs c).rngIn = s.rngIn := drawRegs_rngIn s rs
@[simp] theorem fail_pending (s : State) (rs : List OutReg) (c : ErrCode) : (s.fail rs c).pending = s.pending := drawRegs_pending s rs
@[simp] theorem fail_resp (s : State) (rs : List OutReg) (c : ErrCode) : (s.fail rs c).resp = s.resp := drawRegs_resp s rs
@[simp] theorem fail_res0 (s : State) (rs : List OutReg) (c : ErrCode) : (s.fail rs c).res0 = (s.drawRegs rs).res0 := rfl
@[simp] theorem fail_res1 (s : State) (rs : List OutReg) (c : ErrCode) : (s.fail rs c).res1 = (s.drawRegs rs).res1 := rfl
@[simp] theorem fail_rx (s : State) (rs : List OutReg) (c : ErrCode) : (s.fail rs c).rx = (s.drawRegs rs).rx := rfl
@[simp] theorem fail_ry (s : State) (rs : List OutReg) (c : ErrCode) : (s.fail rs c).ry = (s.drawRegs rs).ry := rfl
@[simp] theorem fail_rinf (s : State) (rs : List OutReg) (c : ErrCode) : (s.fail rs c).rinf = (s.drawRegs rs).rinf := rfl
@[simp] theorem fail_draws (s : State) (rs : List OutReg) (c : ErrCode) : (s.fail rs c).draws = (s.drawRegs rs).draws := rfl

/-! ### await (spec/10_state.md R44, R45) -/

@[simp] theorem await_opa (s : State) (w : Waiting) : (s.await w).opa = s.opa := rfl
@[simp] theorem await_opb (s : State) (w : Waiting) : (s.await w).opb = s.opb := rfl
@[simp] theorem await_opc (s : State) (w : Waiting) : (s.await w).opc = s.opc := rfl
@[simp] theorem await_p1x (s : State) (w : Waiting) : (s.await w).p1x = s.p1x := rfl
@[simp] theorem await_p1y (s : State) (w : Waiting) : (s.await w).p1y = s.p1y := rfl
@[simp] theorem await_p2x (s : State) (w : Waiting) : (s.await w).p2x = s.p2x := rfl
@[simp] theorem await_p2y (s : State) (w : Waiting) : (s.await w).p2y = s.p2y := rfl
@[simp] theorem await_p1inf (s : State) (w : Waiting) : (s.await w).p1inf = s.p1inf := rfl
@[simp] theorem await_p2inf (s : State) (w : Waiting) : (s.await w).p2inf = s.p2inf := rfl
@[simp] theorem await_res0 (s : State) (w : Waiting) : (s.await w).res0 = s.res0 := rfl
@[simp] theorem await_res1 (s : State) (w : Waiting) : (s.await w).res1 = s.res1 := rfl
@[simp] theorem await_rx (s : State) (w : Waiting) : (s.await w).rx = s.rx := rfl
@[simp] theorem await_ry (s : State) (w : Waiting) : (s.await w).ry = s.ry := rfl
@[simp] theorem await_rinf (s : State) (w : Waiting) : (s.await w).rinf = s.rinf := rfl
@[simp] theorem await_ie (s : State) (w : Waiting) : (s.await w).ie = s.ie := rfl
@[simp] theorem await_cmdLast (s : State) (w : Waiting) : (s.await w).cmdLast = s.cmdLast := rfl
@[simp] theorem await_status (s : State) (w : Waiting) : (s.await w).status = { s.status with rngwait := true } := rfl
@[simp] theorem await_seq (s : State) (w : Waiting) : (s.await w).seq = .waitRng w := rfl
@[simp] theorem await_snap (s : State) (w : Waiting) : (s.await w).snap = s.snap := rfl
@[simp] theorem await_rngIn (s : State) (w : Waiting) : (s.await w).rngIn = s.rngIn := rfl
@[simp] theorem await_pending (s : State) (w : Waiting) : (s.await w).pending = s.pending := rfl
@[simp] theorem await_resp (s : State) (w : Waiting) : (s.await w).resp = s.resp := rfl
@[simp] theorem await_draws (s : State) (w : Waiting) : (s.await w).draws = s.draws := rfl

/-! ### drop (spec/10_state.md R43) -/

@[simp] theorem drop_opa (s : State) : (s.drop).opa = s.opa := rfl
@[simp] theorem drop_opb (s : State) : (s.drop).opb = s.opb := rfl
@[simp] theorem drop_opc (s : State) : (s.drop).opc = s.opc := rfl
@[simp] theorem drop_p1x (s : State) : (s.drop).p1x = s.p1x := rfl
@[simp] theorem drop_p1y (s : State) : (s.drop).p1y = s.p1y := rfl
@[simp] theorem drop_p2x (s : State) : (s.drop).p2x = s.p2x := rfl
@[simp] theorem drop_p2y (s : State) : (s.drop).p2y = s.p2y := rfl
@[simp] theorem drop_p1inf (s : State) : (s.drop).p1inf = s.p1inf := rfl
@[simp] theorem drop_p2inf (s : State) : (s.drop).p2inf = s.p2inf := rfl
@[simp] theorem drop_res0 (s : State) : (s.drop).res0 = s.res0 := rfl
@[simp] theorem drop_res1 (s : State) : (s.drop).res1 = s.res1 := rfl
@[simp] theorem drop_rx (s : State) : (s.drop).rx = s.rx := rfl
@[simp] theorem drop_ry (s : State) : (s.drop).ry = s.ry := rfl
@[simp] theorem drop_rinf (s : State) : (s.drop).rinf = s.rinf := rfl
@[simp] theorem drop_ie (s : State) : (s.drop).ie = s.ie := rfl
@[simp] theorem drop_cmdLast (s : State) : (s.drop).cmdLast = s.cmdLast := rfl
@[simp] theorem drop_status (s : State) : (s.drop).status = { s.status with ovr := true } := rfl
@[simp] theorem drop_seq (s : State) : (s.drop).seq = s.seq := rfl
@[simp] theorem drop_snap (s : State) : (s.drop).snap = s.snap := rfl
@[simp] theorem drop_rngIn (s : State) : (s.drop).rngIn = s.rngIn := rfl
@[simp] theorem drop_pending (s : State) : (s.drop).pending = s.pending := rfl
@[simp] theorem drop_resp (s : State) : (s.drop).resp = s.resp := rfl
@[simp] theorem drop_draws (s : State) : (s.drop).draws = s.draws := rfl

/-! ### the bus response (log entry 4) -/

@[simp] theorem respond_opa (s : State) (r : BusResp) : (s.respond r).opa = s.opa := rfl
@[simp] theorem respond_opb (s : State) (r : BusResp) : (s.respond r).opb = s.opb := rfl
@[simp] theorem respond_opc (s : State) (r : BusResp) : (s.respond r).opc = s.opc := rfl
@[simp] theorem respond_p1x (s : State) (r : BusResp) : (s.respond r).p1x = s.p1x := rfl
@[simp] theorem respond_p1y (s : State) (r : BusResp) : (s.respond r).p1y = s.p1y := rfl
@[simp] theorem respond_p2x (s : State) (r : BusResp) : (s.respond r).p2x = s.p2x := rfl
@[simp] theorem respond_p2y (s : State) (r : BusResp) : (s.respond r).p2y = s.p2y := rfl
@[simp] theorem respond_p1inf (s : State) (r : BusResp) : (s.respond r).p1inf = s.p1inf := rfl
@[simp] theorem respond_p2inf (s : State) (r : BusResp) : (s.respond r).p2inf = s.p2inf := rfl
@[simp] theorem respond_res0 (s : State) (r : BusResp) : (s.respond r).res0 = s.res0 := rfl
@[simp] theorem respond_res1 (s : State) (r : BusResp) : (s.respond r).res1 = s.res1 := rfl
@[simp] theorem respond_rx (s : State) (r : BusResp) : (s.respond r).rx = s.rx := rfl
@[simp] theorem respond_ry (s : State) (r : BusResp) : (s.respond r).ry = s.ry := rfl
@[simp] theorem respond_rinf (s : State) (r : BusResp) : (s.respond r).rinf = s.rinf := rfl
@[simp] theorem respond_ie (s : State) (r : BusResp) : (s.respond r).ie = s.ie := rfl
@[simp] theorem respond_cmdLast (s : State) (r : BusResp) : (s.respond r).cmdLast = s.cmdLast := rfl
@[simp] theorem respond_status (s : State) (r : BusResp) : (s.respond r).status = s.status := rfl
@[simp] theorem respond_seq (s : State) (r : BusResp) : (s.respond r).seq = s.seq := rfl
@[simp] theorem respond_snap (s : State) (r : BusResp) : (s.respond r).snap = s.snap := rfl
@[simp] theorem respond_rngIn (s : State) (r : BusResp) : (s.respond r).rngIn = s.rngIn := rfl
@[simp] theorem respond_pending (s : State) (r : BusResp) : (s.respond r).pending = s.pending := rfl
@[simp] theorem respond_resp (s : State) (r : BusResp) : (s.respond r).resp = some r := rfl
@[simp] theorem respond_draws (s : State) (r : BusResp) : (s.respond r).draws = s.draws := rfl

/-! ### reset (spec/70_reset_and_hazards.md R230) -/

@[simp] theorem resetEvent_opa (s : State) : (s.resetEvent).opa = State.reset.opa := rfl
@[simp] theorem resetEvent_opb (s : State) : (s.resetEvent).opb = State.reset.opb := rfl
@[simp] theorem resetEvent_opc (s : State) : (s.resetEvent).opc = State.reset.opc := rfl
@[simp] theorem resetEvent_p1x (s : State) : (s.resetEvent).p1x = State.reset.p1x := rfl
@[simp] theorem resetEvent_p1y (s : State) : (s.resetEvent).p1y = State.reset.p1y := rfl
@[simp] theorem resetEvent_p2x (s : State) : (s.resetEvent).p2x = State.reset.p2x := rfl
@[simp] theorem resetEvent_p2y (s : State) : (s.resetEvent).p2y = State.reset.p2y := rfl
@[simp] theorem resetEvent_p1inf (s : State) : (s.resetEvent).p1inf = State.reset.p1inf := rfl
@[simp] theorem resetEvent_p2inf (s : State) : (s.resetEvent).p2inf = State.reset.p2inf := rfl
@[simp] theorem resetEvent_res0 (s : State) : (s.resetEvent).res0 = State.reset.res0 := rfl
@[simp] theorem resetEvent_res1 (s : State) : (s.resetEvent).res1 = State.reset.res1 := rfl
@[simp] theorem resetEvent_rx (s : State) : (s.resetEvent).rx = State.reset.rx := rfl
@[simp] theorem resetEvent_ry (s : State) : (s.resetEvent).ry = State.reset.ry := rfl
@[simp] theorem resetEvent_rinf (s : State) : (s.resetEvent).rinf = State.reset.rinf := rfl
@[simp] theorem resetEvent_ie (s : State) : (s.resetEvent).ie = State.reset.ie := rfl
@[simp] theorem resetEvent_cmdLast (s : State) : (s.resetEvent).cmdLast = State.reset.cmdLast := rfl
@[simp] theorem resetEvent_status (s : State) : (s.resetEvent).status = State.reset.status := rfl
@[simp] theorem resetEvent_seq (s : State) : (s.resetEvent).seq = State.reset.seq := rfl
@[simp] theorem resetEvent_snap (s : State) : (s.resetEvent).snap = State.reset.snap := rfl
@[simp] theorem resetEvent_rngIn (s : State) : (s.resetEvent).rngIn = State.reset.rngIn := rfl
@[simp] theorem resetEvent_pending (s : State) : (s.resetEvent).pending = s.pending := rfl
@[simp] theorem resetEvent_resp (s : State) : (s.resetEvent).resp = State.reset.resp := rfl
@[simp] theorem resetEvent_draws (s : State) : (s.resetEvent).draws = s.draws := rfl

/-! ### a new input value (spec/10_state.md R21, R24) -/

@[simp] theorem setInput_p1inf (s : State) (r : WideReg) (v : Word256) : (s.setInput r v).p1inf = s.p1inf := by cases r <;> rfl
@[simp] theorem setInput_p2inf (s : State) (r : WideReg) (v : Word256) : (s.setInput r v).p2inf = s.p2inf := by cases r <;> rfl
@[simp] theorem setInput_res0 (s : State) (r : WideReg) (v : Word256) : (s.setInput r v).res0 = s.res0 := by cases r <;> rfl
@[simp] theorem setInput_res1 (s : State) (r : WideReg) (v : Word256) : (s.setInput r v).res1 = s.res1 := by cases r <;> rfl
@[simp] theorem setInput_rx (s : State) (r : WideReg) (v : Word256) : (s.setInput r v).rx = s.rx := by cases r <;> rfl
@[simp] theorem setInput_ry (s : State) (r : WideReg) (v : Word256) : (s.setInput r v).ry = s.ry := by cases r <;> rfl
@[simp] theorem setInput_rinf (s : State) (r : WideReg) (v : Word256) : (s.setInput r v).rinf = s.rinf := by cases r <;> rfl
@[simp] theorem setInput_ie (s : State) (r : WideReg) (v : Word256) : (s.setInput r v).ie = s.ie := by cases r <;> rfl
@[simp] theorem setInput_cmdLast (s : State) (r : WideReg) (v : Word256) : (s.setInput r v).cmdLast = s.cmdLast := by cases r <;> rfl
@[simp] theorem setInput_status (s : State) (r : WideReg) (v : Word256) : (s.setInput r v).status = s.status := by cases r <;> rfl
@[simp] theorem setInput_seq (s : State) (r : WideReg) (v : Word256) : (s.setInput r v).seq = s.seq := by cases r <;> rfl
@[simp] theorem setInput_snap (s : State) (r : WideReg) (v : Word256) : (s.setInput r v).snap = s.snap := by cases r <;> rfl
@[simp] theorem setInput_rngIn (s : State) (r : WideReg) (v : Word256) : (s.setInput r v).rngIn = s.rngIn := by cases r <;> rfl
@[simp] theorem setInput_pending (s : State) (r : WideReg) (v : Word256) : (s.setInput r v).pending = s.pending := by cases r <;> rfl
@[simp] theorem setInput_resp (s : State) (r : WideReg) (v : Word256) : (s.setInput r v).resp = s.resp := by cases r <;> rfl
@[simp] theorem setInput_draws (s : State) (r : WideReg) (v : Word256) : (s.setInput r v).draws = s.draws := by cases r <;> rfl

/-! ### concluding a step (spec/10_state.md R44, R45): what no outcome writes -/

@[simp] theorem conclude_opa (s : State) (i : Instr) (r : Result) : (s.conclude i r).opa = s.opa := by
  cases r <;> simp [State.conclude]
@[simp] theorem conclude_opb (s : State) (i : Instr) (r : Result) : (s.conclude i r).opb = s.opb := by
  cases r <;> simp [State.conclude]
@[simp] theorem conclude_opc (s : State) (i : Instr) (r : Result) : (s.conclude i r).opc = s.opc := by
  cases r <;> simp [State.conclude]
@[simp] theorem conclude_p1x (s : State) (i : Instr) (r : Result) : (s.conclude i r).p1x = s.p1x := by
  cases r <;> simp [State.conclude]
@[simp] theorem conclude_p1y (s : State) (i : Instr) (r : Result) : (s.conclude i r).p1y = s.p1y := by
  cases r <;> simp [State.conclude]
@[simp] theorem conclude_p2x (s : State) (i : Instr) (r : Result) : (s.conclude i r).p2x = s.p2x := by
  cases r <;> simp [State.conclude]
@[simp] theorem conclude_p2y (s : State) (i : Instr) (r : Result) : (s.conclude i r).p2y = s.p2y := by
  cases r <;> simp [State.conclude]
@[simp] theorem conclude_p1inf (s : State) (i : Instr) (r : Result) : (s.conclude i r).p1inf = s.p1inf := by
  cases r <;> simp [State.conclude]
@[simp] theorem conclude_p2inf (s : State) (i : Instr) (r : Result) : (s.conclude i r).p2inf = s.p2inf := by
  cases r <;> simp [State.conclude]
@[simp] theorem conclude_ie (s : State) (i : Instr) (r : Result) : (s.conclude i r).ie = s.ie := by
  cases r <;> simp [State.conclude]
@[simp] theorem conclude_cmdLast (s : State) (i : Instr) (r : Result) : (s.conclude i r).cmdLast = s.cmdLast := by
  cases r <;> simp [State.conclude]
@[simp] theorem conclude_rngIn (s : State) (i : Instr) (r : Result) : (s.conclude i r).rngIn = s.rngIn := by
  cases r <;> simp [State.conclude]
@[simp] theorem conclude_pending (s : State) (i : Instr) (r : Result) : (s.conclude i r).pending = s.pending := by
  cases r <;> simp [State.conclude]
@[simp] theorem conclude_resp (s : State) (i : Instr) (r : Result) : (s.conclude i r).resp = s.resp := by
  cases r <;> simp [State.conclude]
@[simp] theorem conclude_ovr (s : State) (i : Instr) (r : Result) : (s.conclude i r).status.ovr = s.status.ovr := by
  cases r <;> simp [State.conclude, Status.ended, Status.withError]

end Sys2Proof.Machine
end

