-- ==== Sys2Proof/Laws/Bus.lean ====
section
/-! SUPPORT. The words of 256-bit registers and the register map (spec/20_memory.md R61, R66, R67). -/

namespace Sys2Proof.Machine

theorem getWord_toNat (reg : Word256) (i : Nat) : (getWord reg i).toNat = reg.toNat / 2 ^ (32 * i) % 2 ^ 32 := by
  simp [getWord, BitVec.extractLsb'_toNat, Nat.shiftRight_eq_div_pow]

theorem getWord_getLsbD (reg : Word256) (i b : Nat) :
    (getWord reg i).getLsbD b = (decide (b < 32) && reg.getLsbD (32 * i + b)) := by
  simp [getWord, BitVec.getLsbD_extractLsb']

/-- The bits of a register after a word write. -/
theorem setWord_getLsbD (reg : Word256) {i : Nat} (hi : i < 8) (v : Word32) (b : Nat) :
    (setWord reg i v).getLsbD b =
      if 32 * i ≤ b ∧ b < 32 * i + 32 then v.getLsbD (b - 32 * i) else reg.getLsbD b := by
  have hmask : ∀ k, (0xFFFFFFFF : Word256).getLsbD k = decide (k < 32) := by
    intro k
    by_cases hk : k < 256
    · have : ∀ k < 256, (0xFFFFFFFF : Word256).getLsbD k = decide (k < 32) := by decide +kernel
      exact this k hk
    · rw [BitVec.getLsbD_of_ge _ _ (by omega)]
      symm; rw [decide_eq_false_iff_not]; omega
  by_cases hb : b < 256
  · simp only [setWord, BitVec.getLsbD_or, BitVec.getLsbD_and, BitVec.getLsbD_not, BitVec.getLsbD_shiftLeft,
      BitVec.getLsbD_setWidth, hmask, hb, decide_true, Bool.true_and]
    by_cases h1 : b < 32 * i
    · have h2 : ¬(32 * i ≤ b ∧ b < 32 * i + 32) := by omega
      simp [h1, h2]
    · by_cases h3 : b < 32 * i + 32
      · have h2 : 32 * i ≤ b ∧ b < 32 * i + 32 := by omega
        have h4 : b - 32 * i < 32 := by omega
        have h5 : b - 32 * i < 256 := by omega
        simp [h1, h2, h4, h5]
      · have h2 : ¬(32 * i ≤ b ∧ b < 32 * i + 32) := by omega
        have h4 : ¬ (b - 32 * i < 32) := by omega
        simp [h1, h2, h4, BitVec.getLsbD_of_ge v (b - 32 * i) (by omega)]
  · rw [BitVec.getLsbD_of_ge _ _ (by omega), BitVec.getLsbD_of_ge reg _ (by omega), if_neg (by omega)]

/-- A word read after a word write of the same register. -/
theorem getWord_setWord (reg : Word256) {i : Nat} (j : Nat) (hi : i < 8) (v : Word32) :
    getWord (setWord reg i v) j = if j = i then v else getWord reg j := by
  apply BitVec.eq_of_getLsbD_eq
  intro b hb
  rw [getWord_getLsbD, setWord_getLsbD reg hi]
  by_cases hij : j = i
  · subst hij
    rw [if_pos (by omega), if_pos rfl, Nat.add_sub_cancel_left]
    simp [hb]
  · rw [if_neg (by omega), if_neg hij, getWord_getLsbD]

/-- A register is determined by its eight words. -/
theorem eq_of_getWord_eq {a b : Word256} (h : ∀ i < 8, getWord a i = getWord b i) : a = b := by
  apply BitVec.eq_of_getLsbD_eq
  intro k hk
  have := congrArg (fun w => w.getLsbD (k % 32)) (h (k / 32) (by omega))
  simp only [getWord_getLsbD] at this
  rw [show 32 * (k / 32) + k % 32 = k by omega] at this
  simpa [Nat.mod_lt] using this

/-- The offsets of the words of a 256-bit register (spec/20_memory.md R61). -/
theorem regAt_word : ∀ row ∈ wideMap, ∀ i < 8, regAt (row.1 + 4 * i) = some (.word row.2 i) := by decide +kernel

/-- The offsets of the 32-bit registers (spec/20_memory.md R61). -/
theorem regAt_narrow : ∀ row ∈ narrowMap, regAt row.1 = some row.2 := by decide +kernel

theorem regAt_none_rows : ∀ hi < 64, ∀ lo < 64, regAt (64 * hi + lo) = none ↔
    (64 * hi + lo) % 4 ≠ 0 ∨ (0x018 ≤ 64 * hi + lo ∧ 64 * hi + lo ≤ 0x01F) ∨
      (0x180 ≤ 64 * hi + lo ∧ 64 * hi + lo ≤ 0x1FF) ∨ 0x2E0 ≤ 64 * hi + lo := by decide +kernel

/-- Nothing else is mapped (spec/20_memory.md R61, R62, R70). -/
theorem regAt_none (off : Nat) (h : off < 4096) : regAt off = none ↔
    off % 4 ≠ 0 ∨ (0x018 ≤ off ∧ off ≤ 0x01F) ∨ (0x180 ≤ off ∧ off ≤ 0x1FF) ∨ 0x2E0 ≤ off := by
  have := regAt_none_rows (off / 64) (by omega) (off % 64) (Nat.mod_lt _ (by norm_num))
  rwa [Nat.div_add_mod] at this

theorem baseOf_wideMap : ∀ row ∈ wideMap, baseOf row.2 = row.1 := by decide +kernel

/-- The register reads back as written, and no other does (spec/10_state.md R23). -/
theorem setInput_wide (s : State) (r q : WideReg) (v : Word256) (hr : readOnlyReg (.word r 0) = false) :
    (s.setInput r v).wide q = if q = r then v else s.wide q := by
  cases r <;> first | (exact absurd hr (by decide)) | (cases q <;> rfl)

theorem setInput_setInput (s : State) (r : WideReg) (v w : Word256) : (s.setInput r v).setInput r w = s.setInput r w := by
  cases r <;> rfl

end Sys2Proof.Machine
end

