-- ==== Sys2Proof/Laws/Ops.lean ====
section
/-! SUPPORT. What the shared operations can do, said once: a command's step, the accept, the events. -/

namespace Sys2Proof.Machine

/-- The command that waits. -/
def Waiting.instr : Waiting → Instr
  | .genpriv => .genpriv
  | .keypair => .keypair
  | .sign _ _ => .sign

/-- Begin_op of every command, over the snapshot alone (spec/10_state.md R44). -/
def beginOf : Instr → Snapshot → Result
  | .invP, sn    => beginInv dpP sn
  | .invN, sn    => beginInv dpN sn
  | .expP, sn    => beginExp dpP sn
  | .expN, sn    => beginExp dpN sn
  | .padd, sn    => beginPadd sn
  | .pdbl, sn    => beginPdbl sn
  | .smul, sn    => beginSmul sn
  | .genpriv, _  => beginGenpriv
  | .derive, sn  => beginDerive sn
  | .keypair, _  => beginKeypair
  | .sign, sn    => beginSign sn
  | .verify, sn  => beginVerify sn

/-- Attempt_op of the waiting commands (spec/10_state.md R45). -/
def attemptOf : Waiting → Word256 → Result
  | .genpriv, w  => attemptGenpriv w
  | .keypair, w  => attemptKeypair w
  | .sign z d, w => attemptSign z d w

/-- A command that is not the waiting one takes its begin step. -/
theorem exec_begin {i : Instr} {s : State} (h : ∀ w, s.seq = .waitRng w → w.instr ≠ i) :
    exec i s = .next (s.conclude i (beginOf i s.snap)) := by
  cases i <;> try rfl
  all_goals
    simp only [exec, execGenpriv, execKeypair, execSign, beginOf]
    split
    · next hs => exact absurd rfl (h _ hs)
    · rfl

/-- In RUN the step of a command is its begin step (spec/10_state.md R44). -/
theorem exec_run {i : Instr} {s : State} {op : Op} (h : s.seq = .run op) :
    exec i s = .next (s.conclude i (beginOf i s.snap)) :=
  exec_begin (fun w hw => by rw [h] at hw; cases hw)

/-- The waiting command takes an attempt step (spec/10_state.md R45). -/
theorem exec_attempt {s : State} {w : Waiting} (h : s.seq = .waitRng w) :
    exec w.instr s = .next (s.attempt w.instr (attemptOf w)) := by
  cases w <;> simp only [Waiting.instr, exec, execGenpriv, execKeypair, execSign, h] <;> rfl

/-- The step of a command without a delivered word, while it waits, changes nothing. -/
theorem exec_waiting {s : State} {w : Waiting} (h : s.seq = .waitRng w) (hr : s.rngIn = none) :
    exec w.instr s = .next s := by
  rw [exec_attempt h, State.attempt, hr]

/-- The step of a waiting command with a delivered word. -/
theorem exec_delivered {s : State} {w : Waiting} {x : Word256} (h : s.seq = .waitRng w) (hr : s.rngIn = some x) :
    exec w.instr s = .next (({ s with rngIn := none } : State).conclude w.instr (attemptOf w x)) := by
  rw [exec_attempt h, State.attempt, hr]

/-- Everything the step of a command can do: it concludes its begin step, it waits without a word, or it concludes an
attempt with the word consumed. -/
theorem exec_cases (i : Instr) (s : State) :
    exec i s = .next (s.conclude i (beginOf i s.snap)) ∨
    ∃ w, s.seq = .waitRng w ∧ w.instr = i ∧
      ((s.rngIn = none ∧ exec i s = .next s) ∨
        ∃ x, s.rngIn = some x ∧ exec i s = .next (({ s with rngIn := none } : State).conclude i (attemptOf w x))) := by
  by_cases h : ∃ w, s.seq = .waitRng w ∧ w.instr = i
  · obtain ⟨w, hw, rfl⟩ := h
    right
    refine ⟨w, hw, rfl, ?_⟩
    cases hr : s.rngIn with
    | none => exact .inl ⟨rfl, exec_waiting hw hr⟩
    | some x => exact .inr ⟨x, rfl, exec_delivered hw hr⟩
  · left
    exact exec_begin (fun w hw hi => h ⟨w, hw, hi⟩)

/-- A command's step always answers a next state. -/
theorem exec_next (i : Instr) (s : State) : ∃ t, exec i s = .next t := by
  rcases exec_cases i s with h | ⟨w, _, _, ⟨_, h⟩ | ⟨x, _, h⟩⟩ <;> exact ⟨_, h⟩

/-- The running command, by SEQ. -/
theorem current_eq_some {s : State} {i : Instr} (h : s.current = some i) :
    (∃ op, s.seq = .run op ∧ i = Instr.ofOp op s.snap.msel) ∨ ∃ w, s.seq = .waitRng w ∧ w.instr = i := by
  unfold State.current at h
  split at h <;> simp_all [Waiting.instr]

@[simp] theorem current_run {s : State} {op : Op} (h : s.seq = .run op) :
    s.current = some (Instr.ofOp op s.snap.msel) := by simp [State.current, h]

@[simp] theorem current_waitRng {s : State} {w : Waiting} (h : s.seq = .waitRng w) : s.current = some w.instr := by
  cases w <;> simp [State.current, h, Waiting.instr]

@[simp] theorem current_idle {s : State} (h : s.seq = .idle) : s.current = none := by simp [State.current, h]

theorem current_eq_none {s : State} (h : s.current = none) : s.seq = .idle := by
  unfold State.current at h; split at h <;> simp_all

theorem rngReq_iff (s : State) : s.rngReq = true ↔ ∃ w, s.seq = .waitRng w := by
  unfold State.rngReq; split <;> simp_all

/-! ### The flags of the operations -/

@[simp] theorem ended_busy (st : Status) : st.ended.busy = false := rfl
@[simp] theorem ended_done (st : Status) : st.ended.done = true := rfl
@[simp] theorem ended_rngwait (st : Status) : st.ended.rngwait = false := rfl
@[simp] theorem ended_err (st : Status) : st.ended.err = st.err := rfl
@[simp] theorem ended_vok (st : Status) : st.ended.vok = st.vok := rfl
@[simp] theorem ended_ovr (st : Status) : st.ended.ovr = st.ovr := rfl
@[simp] theorem ended_errcode (st : Status) : st.ended.errcode = st.errcode := rfl
@[simp] theorem withError_busy (st : Status) (c : ErrCode) : (st.withError c).busy = st.busy := rfl
@[simp] theorem withError_done (st : Status) (c : ErrCode) : (st.withError c).done = st.done := rfl
@[simp] theorem withError_err (st : Status) (c : ErrCode) : (st.withError c).err = true := rfl
@[simp] theorem withError_vok (st : Status) (c : ErrCode) : (st.withError c).vok = st.vok := rfl
@[simp] theorem withError_ovr (st : Status) (c : ErrCode) : (st.withError c).ovr = st.ovr := rfl
@[simp] theorem withError_rngwait (st : Status) (c : ErrCode) : (st.withError c).rngwait = st.rngwait := rfl
@[simp] theorem withError_errcode (st : Status) (c : ErrCode) : (st.withError c).errcode = c.code := rfl
@[simp] theorem cleared_busy (st : Status) : st.cleared.busy = st.busy := rfl
@[simp] theorem cleared_done (st : Status) : st.cleared.done = false := rfl
@[simp] theorem cleared_err (st : Status) : st.cleared.err = false := rfl
@[simp] theorem cleared_vok (st : Status) : st.cleared.vok = false := rfl
@[simp] theorem cleared_ovr (st : Status) : st.cleared.ovr = st.ovr := rfl
@[simp] theorem cleared_rngwait (st : Status) : st.cleared.rngwait = st.rngwait := rfl
@[simp] theorem cleared_errcode (st : Status) : st.cleared.errcode = 0 := rfl

theorem code_ne_zero (c : ErrCode) : c.code ≠ 0 := by cases c <;> decide

theorem code_le (c : ErrCode) : c.code.toNat ≤ 4 := by cases c <;> decide

/-! ### Accept -/

theorem accept_illegal {s : State} {v : Word32} {why : Illegal} (h : decode v = .illegal why) :
    s.accept v = { s with
      cmdLast := v
      status := { (s.status.cleared.withError .illegalCommand) with done := true } } := by
  simp [State.accept, h]

theorem accept_legal {s : State} {v : Word32} {i : Instr} (h : decode v = .instr i) :
    s.accept v = { s with
      cmdLast := v
      status := { s.status.cleared with busy := true }
      snap := s.snapshot (v.getLsbD 4)
      seq := .run i.op } := by
  simp [State.accept, h]

theorem cmdWrite_idle {s : State} (v : Word32) (h : s.status.busy = false) : s.cmdWrite v = s.accept v := by
  simp [State.cmdWrite, h]

theorem cmdWrite_busy {s : State} (v : Word32) (h : s.status.busy = true) : s.cmdWrite v = s.drop := by
  simp [State.cmdWrite, h]

/-! ### The step, by the next event -/

theorem step_nil {s : State} (h : s.pending = []) : step s = sequencerTurn s := by simp [step, h]

theorem step_cons {s : State} {e : Event} {rest : List Event} (h : s.pending = e :: rest) :
    step s = handleEvent e { s with pending := rest } := by simp [step, h]

/-- A CMD write (spec/20_memory.md R64). -/
theorem step_cmd {s : State} {v : Word32} {rest : List Event} (h : s.pending = .write 0x008 32 v :: rest) :
    step s = .next ((({ s with pending := rest } : State).cmdWrite v).respond (.write .okay)) := by
  rw [step_cons h]; rfl

/-- The sequencer's turn with a running command. -/
theorem sequencerTurn_current {s : State} {i : Instr} (h : s.current = some i) : sequencerTurn s = exec i s := by
  simp [sequencerTurn, h]

theorem sequencerTurn_idle {s : State} (h : s.seq = .idle) : sequencerTurn s = .next s := by
  simp [sequencerTurn, current_idle h]

/-- The sequencer's turn always answers a next state. -/
theorem sequencerTurn_next (s : State) : ∃ t, sequencerTurn s = .next t := by
  unfold sequencerTurn
  split
  · exact ⟨s, rfl⟩
  · exact exec_next _ _

end Sys2Proof.Machine
end

