-- ==== Sys2Proof/Laws/Field.lean ====
section
/-! SUPPORT. What the internal modular functions compute (spec/40_field_arithmetic.md R100 to R103), and that p and n
are prime (spec/10_state.md R40). -/

namespace Sys2Proof.Machine

theorem modInt_lt (a : Int) {m : Nat} (hm : 0 < m) : modInt a m < m := by
  have h1 := Int.emod_nonneg a (b := (m : Int)) (by omega)
  have h2 := Int.emod_lt_of_pos a (b := (m : Int)) (by omega)
  unfold modInt; omega

theorem modInt_cast (a : Int) {m : Nat} (hm : 0 < m) : ((modInt a m : Nat) : Int) = a % m := by
  have h1 := Int.emod_nonneg a (b := (m : Int)) (by omega)
  unfold modInt; omega

/-- In the field, `modInt` is the integer itself. -/
@[simp] theorem modInt_zmod (a : Int) (m : Nat) [NeZero m] : ((modInt a m : Nat) : ZMod m) = (a : ZMod m) := by
  have h : ((modInt a m : Nat) : Int) = a % m := modInt_cast a (NeZero.pos m)
  rw [← Int.cast_natCast, h, ZMod.intCast_mod]

theorem modInt_eq_zero_iff (a : Int) (m : Nat) [NeZero m] : modInt a m = 0 ↔ (a : ZMod m) = 0 := by
  rw [← modInt_zmod, ZMod.natCast_eq_zero_iff]
  exact ⟨fun h => h ▸ dvd_zero m, fun h => Nat.eq_zero_of_dvd_of_lt h (modInt_lt a (NeZero.pos m))⟩

theorem modMul_nat (a b : Nat) (m : Nat) : modMul (a : Int) (b : Int) m = a * b % m := by
  unfold modMul modInt; norm_cast

theorem bitlen_bound (k : Nat) : k < 2 ^ bitlen k := by
  unfold bitlen
  split
  · subst_vars; simp
  · exact Nat.lt_log2_self

/-- The loop multiplies the accumulator by the power of the base. -/
theorem powLoop_spec (m : Nat) (fuel base e acc : Nat) (he : e < 2 ^ fuel) (hacc : acc < m) :
    powLoop m fuel base e acc = acc * base ^ e % m := by
  induction fuel generalizing base e acc with
  | zero =>
    have : e = 0 := by simpa using he
    simp [powLoop, this, Nat.mod_eq_of_lt hacc]
  | succ fuel ih =>
    have hm : 0 < m := by omega
    have he2 : e / 2 < 2 ^ fuel := by rw [pow_succ] at he; omega
    have hsq : (base * base % m) ^ (e / 2) ≡ base ^ (2 * (e / 2)) [MOD m] := by
      rw [pow_mul, pow_two]; exact (Nat.mod_modEq _ _).pow _
    rw [powLoop, ih _ _ _ he2 (by split <;> first | exact Nat.mod_lt _ hm | exact hacc)]
    change _ ≡ _ [MOD m]
    split
    · next hodd =>
      have hexp : base ^ e = base * base ^ (2 * (e / 2)) := by
        rw [← pow_succ']; congr 1; omega
      rw [hexp, ← mul_assoc]
      exact (Nat.mod_modEq _ _).mul hsq
    · next heven =>
      have hexp : 2 * (e / 2) = e := by omega
      rw [hexp] at hsq
      exact hsq.mul_left acc

/-- Exp computes the power (spec/40_field_arithmetic.md R103). -/
theorem expMod_eq (a e m : Nat) (hm : 1 < m) : expMod a e m = a ^ e % m := by
  unfold expMod
  rw [powLoop_spec m _ _ _ _ (bitlen_bound e) (Nat.mod_lt _ (by omega)), Nat.mod_eq_of_lt hm, one_mul,
    ← Nat.pow_mod]

theorem expMod_lt (a e m : Nat) (hm : 1 < m) : expMod a e m < m := by
  rw [expMod_eq a e m hm]; exact Nat.mod_lt _ (by omega)

theorem expMod_zmod (a e m : Nat) (hm : 1 < m) : ((expMod a e m : Nat) : ZMod m) = (a : ZMod m) ^ e := by
  rw [expMod_eq a e m hm, ZMod.natCast_mod, Nat.cast_pow]

/-- One prime of a Pocklington certificate: it divides r − 1 for every prime factor r of N. -/
theorem pocklington_dvd {N q a r : Nat} (hN : 1 < N) (hq : q.Prime) (hqN : q ∣ N - 1)
    (h1 : expMod a (N - 1) N = 1) (h2 : Nat.gcd (expMod a ((N - 1) / q) N + N - 1) N = 1)
    (hr : r.Prime) (hrN : r ∣ N) : q ∣ r - 1 := by
  have : Fact r.Prime := ⟨hr⟩
  have cast (e : Nat) : ((expMod a e N : Nat) : ZMod r) = (a : ZMod r) ^ e := by
    have h : expMod a e N ≡ a ^ e [MOD r] := by
      rw [expMod_eq a e N hN]; exact (Nat.mod_modEq _ _).of_dvd hrN
    simpa using (ZMod.natCast_eq_natCast_iff _ _ _).2 h
  have hb1 : ((a : ZMod r) ^ ((N - 1) / q)) ^ q = 1 := by
    rw [← pow_mul, Nat.div_mul_cancel hqN, ← cast, h1, Nat.cast_one]
  have hne : (a : ZMod r) ^ ((N - 1) / q) ≠ 1 := by
    intro h
    have hz : ((expMod a ((N - 1) / q) N + N - 1 : Nat) : ZMod r) = 0 := by
      rw [Nat.add_sub_assoc (by omega), Nat.cast_add, Nat.cast_sub (by omega), cast, h,
        (ZMod.natCast_eq_zero_iff N r).2 hrN]
      ring
    have hd : r ∣ 1 := h2 ▸ Nat.dvd_gcd ((ZMod.natCast_eq_zero_iff _ _).1 hz) hrN
    exact hr.one_lt.ne' (Nat.dvd_one.1 hd)
  have : Fact q.Prime := ⟨hq⟩
  have hord := orderOf_eq_prime hb1 hne
  have h0 : (a : ZMod r) ^ ((N - 1) / q) ≠ 0 := by
    intro h; rw [h, zero_pow hq.ne_zero] at hb1; exact zero_ne_one hb1
  exact hord ▸ ZMod.orderOf_dvd_card_sub_one h0

/-- Pocklington's criterion: a factor F of every r − 1 with F² ≥ N makes N prime. -/
theorem pocklington {N F : Nat} (hN : 1 < N) (hF : ∀ r, r.Prime → r ∣ N → F ∣ r - 1) (hFN : N < (F + 1) * (F + 1)) :
    N.Prime := by
  by_contra hp
  have hr := Nat.minFac_prime (n := N) (by omega)
  have hle : F + 1 ≤ N.minFac := by
    have := Nat.le_of_dvd (by have := hr.two_le; omega) (hF _ hr (Nat.minFac_dvd N))
    have := hr.two_le; omega
  have := Nat.minFac_sq_le_self (by omega) hp
  nlinarith

/-- The prime factor of p − 1 that proves p prime, and the chain below it. -/
theorem prime_255 : Nat.Prime 255515944373312847190720520512484175977 :=
  pocklington (F := 107590001 * (7240687 * 96557)) (by norm_num)
    (fun _ hr hrN => Nat.Coprime.mul_dvd_of_dvd_of_dvd (by norm_num)
      (pocklington_dvd (a := 3) (by norm_num) (by norm_num) (by norm_num) (by decide +kernel) (by decide +kernel) hr hrN)
      (Nat.Coprime.mul_dvd_of_dvd_of_dvd (by norm_num)
        (pocklington_dvd (a := 3) (by norm_num) (by norm_num) (by norm_num) (by decide +kernel) (by decide +kernel) hr hrN)
        (pocklington_dvd (a := 3) (by norm_num) (by norm_num) (by norm_num) (by decide +kernel) (by decide +kernel) hr hrN)))
    (by norm_num)

theorem prime_205 : Nat.Prime 205115282021455665897114700593932402728804164701536103180137503955397371 :=
  pocklington (F := 255515944373312847190720520512484175977) (by norm_num)
    (fun _ hr hrN => pocklington_dvd (a := 2) (by norm_num) prime_255 (by norm_num) (by decide +kernel)
      (by decide +kernel) hr hrN)
    (by norm_num)

/-- p is prime (spec/10_state.md R36, R40). -/
theorem dpP_prime : Nat.Prime dpP :=
  pocklington (F := 205115282021455665897114700593932402728804164701536103180137503955397371) (by decide +kernel)
    (fun _ hr hrN => pocklington_dvd (a := 3) (by decide +kernel) prime_205 (by decide +kernel) (by decide +kernel)
      (by decide +kernel) hr hrN)
    (by decide +kernel)

theorem prime_545 : Nat.Prime 545358713 :=
  pocklington (F := 28181) (by norm_num)
    (fun _ hr hrN => pocklington_dvd (a := 2) (by norm_num) (by norm_num) (by norm_num) (by decide +kernel)
      (by decide +kernel) hr hrN)
    (by norm_num)

theorem prime_290 : Nat.Prime 29047611873442575647497758179 :=
  pocklington (F := 545358713 * (305873 * 293)) (by norm_num)
    (fun _ hr hrN => Nat.Coprime.mul_dvd_of_dvd_of_dvd (by norm_num)
      (pocklington_dvd (a := 2) (by norm_num) prime_545 (by norm_num) (by decide +kernel) (by decide +kernel) hr hrN)
      (Nat.Coprime.mul_dvd_of_dvd_of_dvd (by norm_num)
        (pocklington_dvd (a := 2) (by norm_num) (by norm_num) (by norm_num) (by decide +kernel) (by decide +kernel) hr hrN)
        (pocklington_dvd (a := 2) (by norm_num) (by norm_num) (by norm_num) (by decide +kernel) (by decide +kernel) hr hrN)))
    (by norm_num)

theorem prime_341 : Nat.Prime 341948486974166000522343609283189 :=
  pocklington (F := 29047611873442575647497758179) (by norm_num)
    (fun _ hr hrN => pocklington_dvd (a := 2) (by norm_num) prime_290 (by norm_num) (by decide +kernel)
      (by decide +kernel) hr hrN)
    (by norm_num)

theorem prime_174 : Nat.Prime 174723607534414371449 :=
  pocklington (F := 44706919 * 120233) (by norm_num)
    (fun _ hr hrN => Nat.Coprime.mul_dvd_of_dvd_of_dvd (by norm_num)
      (pocklington_dvd (a := 3) (by norm_num) (by norm_num) (by norm_num) (by decide +kernel) (by decide +kernel) hr hrN)
      (pocklington_dvd (a := 3) (by norm_num) (by norm_num) (by norm_num) (by decide +kernel) (by decide +kernel) hr hrN))
    (by norm_num)

/-- n is prime (spec/10_state.md R38, R40). -/
theorem dpN_prime : Nat.Prime dpN :=
  pocklington (F := 341948486974166000522343609283189 * 174723607534414371449) (by decide +kernel)
    (fun _ hr hrN => Nat.Coprime.mul_dvd_of_dvd_of_dvd (by norm_num)
      (pocklington_dvd (a := 3) (by decide +kernel) prime_341 (by decide +kernel) (by decide +kernel)
        (by decide +kernel) hr hrN)
      (pocklington_dvd (a := 3) (by decide +kernel) prime_174 (by decide +kernel) (by decide +kernel)
        (by decide +kernel) hr hrN))
    (by decide +kernel)

theorem dpN_lt_dpP : dpN < dpP := by decide +kernel

theorem dpP_lt : dpP < 2 ^ 256 := by decide +kernel

theorem one_lt_dpP : 1 < dpP := by decide +kernel

theorem one_lt_dpN : 1 < dpN := by decide +kernel

/-- Inv fails exactly on the multiples of m (spec/40_field_arithmetic.md R102). -/
theorem invMod_error_iff (a m : Nat) (c : ErrCode) : invMod a m = .error c ↔ a % m = 0 ∧ c = .invalidInverse := by
  unfold invMod; split <;> simp_all [eq_comm]

/-- Inv's value is an inverse in the field (spec/40_field_arithmetic.md R102). -/
theorem invMod_spec {a m x : Nat} (hm : m.Prime) (h : invMod a m = .ok x) :
    0 < x ∧ x < m ∧ a * x % m = 1 := by
  have : Fact m.Prime := ⟨hm⟩
  have h1 := hm.one_lt
  unfold invMod at h
  split at h
  · cases h
  · next ha =>
    cases h
    have ha0 : (a : ZMod m) ≠ 0 := fun h0 => ha (Nat.mod_eq_zero_of_dvd ((ZMod.natCast_eq_zero_iff _ _).1 h0))
    have hprod : a * expMod a (m - 2) m % m = 1 := by
      have : ((a * expMod a (m - 2) m : Nat) : ZMod m) = ((1 : Nat) : ZMod m) := by
        rw [Nat.cast_mul, expMod_zmod a _ m h1, ← pow_succ', show m - 2 + 1 = m - 1 by omega,
          ZMod.pow_card_sub_one_eq_one ha0, Nat.cast_one]
      have := (ZMod.natCast_eq_natCast_iff' _ _ _).1 this
      rwa [Nat.mod_eq_of_lt h1] at this
    refine ⟨Nat.pos_of_ne_zero fun h0 => ?_, expMod_lt a _ m h1, hprod⟩
    rw [h0, Nat.mul_zero, Nat.zero_mod] at hprod
    exact absurd hprod (by omega)

/-- Inv answers on everything but the multiples of m. -/
theorem invMod_ok {a m : Nat} (ha : a % m ≠ 0) : invMod a m = .ok (expMod a (m - 2) m) := by
  simp [invMod, ha]

/-- The inverse is the field's inverse. -/
theorem invMod_zmod {a m x : Nat} (hm : m.Prime) (h : invMod a m = .ok x) : (x : ZMod m) = (a : ZMod m)⁻¹ := by
  have : Fact m.Prime := ⟨hm⟩
  obtain ⟨_, _, h3⟩ := invMod_spec hm h
  apply eq_inv_of_mul_eq_one_right
  have h4 : a * x ≡ 1 [MOD m] := by
    unfold Nat.ModEq; rw [h3, Nat.mod_eq_of_lt hm.one_lt]
  simpa using (ZMod.natCast_eq_natCast_iff _ _ _).2 h4

/-- The inverse is unique in [0, m). -/
theorem inverse_unique {a m x y : Nat} (hx : x < m) (hy : y < m) (h : a * x % m = 1) (h' : a * y % m = 1) : x = y := by
  have e : x ≡ y [MOD m] := by
    have h1 : (x * (a * y)) ≡ x * 1 [MOD m] := Nat.ModEq.mul_left x (by
      unfold Nat.ModEq; rw [h']; exact (Nat.mod_eq_of_lt (by rcases m with _ | _ | m <;> simp_all)).symm)
    have h2 : (y * (a * x)) ≡ y * 1 [MOD m] := Nat.ModEq.mul_left y (by
      unfold Nat.ModEq; rw [h]; exact (Nat.mod_eq_of_lt (by rcases m with _ | _ | m <;> simp_all)).symm)
    have h3 : x * (a * y) = y * (a * x) := by ring
    rw [h3] at h1
    simpa using h1.symm.trans h2
  unfold Nat.ModEq at e
  rwa [Nat.mod_eq_of_lt hx, Nat.mod_eq_of_lt hy] at e

end Sys2Proof.Machine
end

