-- ==== Sys2Proof/Laws/Curve.lean ====
section
/-! SUPPORT. The group law of the point_adder (spec/41_point_ops.md R124, R125): AddPoints on on-curve points is the
addition of the Mathlib group of points of y² = x³ + 7 over the field of p elements. -/

namespace Sys2Proof.Machine

/-- The curve over the field of p elements (spec/10_state.md R37). -/
def secpCurve : WeierstrassCurve.Affine (ZMod dpP) :=
  { a₁ := 0, a₂ := 0, a₃ := 0, a₄ := (dpA : ZMod dpP), a₆ := (dpB : ZMod dpP) }

section
variable [Fact (Nat.Prime dpP)]

theorem natCast_inj_of_lt {x y : Nat} (hx : x < dpP) (hy : y < dpP) (h : (x : ZMod dpP) = y) : x = y := by
  have := (ZMod.natCast_eq_natCast_iff' _ _ _).1 h
  rwa [Nat.mod_eq_of_lt hx, Nat.mod_eq_of_lt hy] at this

theorem natCast_ne_zero_of_lt {k : Nat} (h0 : 0 < k) (hk : k < dpP) : ((k : Nat) : ZMod dpP) ≠ 0 := by
  intro h
  have := Nat.le_of_dvd h0 ((ZMod.natCast_eq_zero_iff _ _).1 h)
  omega

theorem secp_equation (x y : ZMod dpP) : secpCurve.Equation x y ↔ y ^ 2 = x ^ 3 + 7 := by
  rw [WeierstrassCurve.Affine.equation_iff]
  simp [secpCurve, dpA, dpB]

theorem secp_nonsingular (x y : ZMod dpP) : secpCurve.Nonsingular x y ↔ y ^ 2 = x ^ 3 + 7 := by
  rw [← secp_equation]
  refine (WeierstrassCurve.Affine.equation_iff_nonsingular_of_Δ_ne_zero ?_).symm
  have h : secpCurve.Δ = -((21168 : Nat) : ZMod dpP) := by
    simp [WeierstrassCurve.Δ, WeierstrassCurve.b₂, WeierstrassCurve.b₄, WeierstrassCurve.b₆, WeierstrassCurve.b₈,
      secpCurve, dpA, dpB]
    norm_num
  rw [h, neg_ne_zero]
  exact natCast_ne_zero_of_lt (by norm_num) (by decide +kernel)

/-- The on-curve checker, in the field (spec/41_point_ops.md R121). -/
theorem onCurve_fin (x y : Nat) :
    onCurve (.fin x y) = true ↔ x < dpP ∧ y < dpP ∧ (y : ZMod dpP) ^ 2 = (x : ZMod dpP) ^ 3 + 7 := by
  simp only [onCurve, Bool.and_eq_true, decide_eq_true_eq, modInt_eq_zero_iff, and_assoc]
  refine and_congr_right fun _ => and_congr_right fun _ => ?_
  rw [← sub_eq_zero (a := (y : ZMod dpP) ^ 2)]
  push_cast
  simp only [dpA, dpB, Nat.cast_zero, zero_mul, add_zero, Nat.cast_ofNat]
  rw [show (y : ZMod dpP) * y - (x * x * x + 7) = y ^ 2 - (x ^ 3 + 7) by ring]

open Classical in
/-- The group element of a point. -/
noncomputable def Point.toGroup : Point → secpCurve.Point
  | .inf => 0
  | .fin x y => if h : secpCurve.Nonsingular (x : ZMod dpP) (y : ZMod dpP) then .some _ _ h else 0

@[simp] theorem toGroup_inf : Point.inf.toGroup = 0 := rfl

theorem toGroup_fin {x y : Nat} (h : secpCurve.Nonsingular (x : ZMod dpP) (y : ZMod dpP)) :
    (Point.fin x y).toGroup = .some _ _ h := by
  simp [Point.toGroup, h]

theorem onCurve_nonsingular {x y : Nat} (h : onCurve (.fin x y) = true) :
    secpCurve.Nonsingular (x : ZMod dpP) (y : ZMod dpP) :=
  (secp_nonsingular _ _).2 ((onCurve_fin x y).1 h).2.2

theorem toGroup_injective {P Q : Point} (hP : onCurve P = true) (hQ : onCurve Q = true) (h : P.toGroup = Q.toGroup) :
    P = Q := by
  cases P with
  | inf =>
    cases Q with
    | inf => rfl
    | fin x y =>
      rw [toGroup_fin (onCurve_nonsingular hQ), toGroup_inf] at h
      exact absurd h.symm (WeierstrassCurve.Affine.Point.some_ne_zero _)
  | fin x y =>
    cases Q with
    | inf =>
      rw [toGroup_fin (onCurve_nonsingular hP), toGroup_inf] at h
      exact absurd h (WeierstrassCurve.Affine.Point.some_ne_zero _)
    | fin x' y' =>
      rw [toGroup_fin (onCurve_nonsingular hP), toGroup_fin (onCurve_nonsingular hQ)] at h
      obtain ⟨hx, hy⟩ := (WeierstrassCurve.Affine.Point.some.injEq ..).mp h
      have h1 := (onCurve_fin x y).1 hP
      have h2 := (onCurve_fin x' y').1 hQ
      rw [natCast_inj_of_lt h1.1 h2.1 hx, natCast_inj_of_lt h1.2.1 h2.2.1 hy]

theorem toGroup_surjective (A : secpCurve.Point) : ∃ P : Point, onCurve P = true ∧ P.toGroup = A := by
  cases A with
  | zero => exact ⟨.inf, rfl, rfl⟩
  | some x y h =>
    have hx : ((x.val : Nat) : ZMod dpP) = x := ZMod.natCast_zmod_val x
    have hy : ((y.val : Nat) : ZMod dpP) = y := ZMod.natCast_zmod_val y
    have hn : secpCurve.Nonsingular ((x.val : Nat) : ZMod dpP) ((y.val : Nat) : ZMod dpP) := by rwa [hx, hy]
    refine ⟨.fin x.val y.val, (onCurve_fin _ _).2 ⟨ZMod.val_lt x, ZMod.val_lt y, (secp_nonsingular _ _).1 hn⟩, ?_⟩
    rw [toGroup_fin hn]
    congr 1

theorem toGroup_eq_zero {P : Point} (hP : onCurve P = true) : P.toGroup = 0 ↔ P = .inf :=
  ⟨fun h => toGroup_injective hP rfl h, fun h => by rw [h, toGroup_inf]⟩

/-- Step 6 is the group's third point, once the slope is the group's slope. -/
theorem chordPoint_spec {x₁ y₁ x₂ y₂ lam : Nat} (h₁ : onCurve (.fin x₁ y₁) = true) (h₂ : onCurve (.fin x₂ y₂) = true)
    (hxy : ¬((x₁ : ZMod dpP) = x₂ ∧ (y₁ : ZMod dpP) = secpCurve.negY x₂ y₂))
    (hlam : (lam : ZMod dpP) = secpCurve.slope (x₁ : ZMod dpP) x₂ y₁ y₂) :
    onCurve (chordPoint lam x₁ y₁ x₂) = true ∧
      (chordPoint lam x₁ y₁ x₂).toGroup = (Point.fin x₁ y₁).toGroup + (Point.fin x₂ y₂).toGroup := by
  have hp : 0 < dpP := (Fact.out : Nat.Prime dpP).pos
  have hn₁ := onCurve_nonsingular h₁
  have hn₂ := onCurve_nonsingular h₂
  have hx : ((modInt ((lam : Int) * lam - x₁ - x₂) dpP : Nat) : ZMod dpP) =
      secpCurve.addX (x₁ : ZMod dpP) x₂ (secpCurve.slope (x₁ : ZMod dpP) x₂ y₁ y₂) := by
    rw [modInt_zmod, ← hlam]
    simp only [WeierstrassCurve.Affine.addX, secpCurve]
    push_cast; ring
  have hy : ((modInt ((lam : Int) * ((x₁ : Int) - modInt ((lam : Int) * lam - x₁ - x₂) dpP) - y₁) dpP : Nat) :
        ZMod dpP) =
      secpCurve.addY (x₁ : ZMod dpP) x₂ y₁ (secpCurve.slope (x₁ : ZMod dpP) x₂ y₁ y₂) := by
    rw [modInt_zmod, WeierstrassCurve.Affine.addY, WeierstrassCurve.Affine.negAddY, ← hx, ← hlam]
    simp only [WeierstrassCurve.Affine.negY, secpCurve]
    push_cast; ring
  have hn := WeierstrassCurve.Affine.nonsingular_add hn₁ hn₂ hxy
  have hn' := hn
  rw [← hx, ← hy] at hn'
  refine ⟨(onCurve_fin _ _).2 ⟨modInt_lt _ hp, modInt_lt _ hp, (secp_nonsingular _ _).1 hn'⟩, ?_⟩
  rw [toGroup_fin hn₁, toGroup_fin hn₂, WeierstrassCurve.Affine.Point.add_some hxy, chordPoint, toGroup_fin hn']
  congr 1

/-- Steps 2 to 6 on two finite on-curve points. -/
theorem addFinite_spec {x₁ y₁ x₂ y₂ : Nat} (h₁ : onCurve (.fin x₁ y₁) = true) (h₂ : onCurve (.fin x₂ y₂) = true) :
    ∃ R, addFinite x₁ y₁ x₂ y₂ = .ok R ∧ onCurve R = true ∧
      R.toGroup = (Point.fin x₁ y₁).toGroup + (Point.fin x₂ y₂).toGroup := by
  have hprime : Nat.Prime dpP := Fact.out
  obtain ⟨hx₁, hy₁, he₁⟩ := (onCurve_fin _ _).1 h₁
  obtain ⟨hx₂, hy₂, he₂⟩ := (onCurve_fin _ _).1 h₂
  have hneg : secpCurve.negY (x₂ : ZMod dpP) y₂ = -(y₂ : ZMod dpP) := by
    simp [WeierstrassCurve.Affine.negY, secpCurve]
  have hsum : (y₁ + y₂) % dpP = 0 ↔ (y₁ : ZMod dpP) = -(y₂ : ZMod dpP) := by
    rw [← Nat.dvd_iff_mod_eq_zero, ← ZMod.natCast_eq_zero_iff, Nat.cast_add, eq_neg_iff_add_eq_zero]
  unfold addFinite
  split
  · next h =>
    obtain ⟨hx, hs⟩ := h
    refine ⟨_, rfl, rfl, ?_⟩
    rw [toGroup_fin (onCurve_nonsingular h₁), toGroup_fin (onCurve_nonsingular h₂), toGroup_inf,
      WeierstrassCurve.Affine.Point.add_of_Y_eq (by rw [hx]) (by rw [hneg]; exact hsum.1 hs)]
  · next hne =>
    split
    · next heq =>
      obtain ⟨rfl, rfl⟩ := heq
      have hyne : ¬ (y₁ : ZMod dpP) = -(y₁ : ZMod dpP) := fun h => hne ⟨rfl, hsum.2 h⟩
      have hy0 : y₁ ≠ 0 := by rintro rfl; exact hyne (by simp)
      have h2y : (2 * y₁) % dpP ≠ 0 := by rw [two_mul]; exact fun h => hyne (hsum.1 h)
      rw [if_neg hy0, tangentSlope, invMod_ok h2y]
      refine ⟨_, rfl, chordPoint_spec h₁ h₂ (by rw [hneg]; exact fun h => hyne h.2) ?_⟩
      rw [WeierstrassCurve.Affine.slope_of_Y_ne rfl (by rw [hneg]; exact hyne), hneg, modMul, modInt_zmod, modAdd]
      push_cast
      rw [invMod_zmod hprime (invMod_ok h2y), modInt_zmod]
      simp only [secpCurve, dpA]
      push_cast
      rw [div_eq_mul_inv]
      congr 1
      · ring
      · congr 1; ring
    · next hPQ =>
      have hxne : x₁ ≠ x₂ := by
        rintro rfl
        rw [← he₁, sq_eq_sq_iff_eq_or_eq_neg] at he₂
        rcases he₂ with h | h
        · exact hPQ ⟨rfl, natCast_inj_of_lt hy₁ hy₂ h.symm⟩
        · exact hne ⟨rfl, hsum.2 (by rw [h, neg_neg])⟩
      have hxne' : (x₁ : ZMod dpP) ≠ x₂ := fun h => hxne (natCast_inj_of_lt hx₁ hx₂ h)
      have hd : modSub x₁ x₂ dpP % dpP ≠ 0 := by
        rw [modSub, Nat.mod_eq_of_lt (modInt_lt _ hprime.pos), Ne, modInt_eq_zero_iff]
        push_cast
        exact sub_ne_zero.2 hxne'
      rw [chordSlope, invMod_ok hd]
      refine ⟨_, rfl, chordPoint_spec h₁ h₂ (fun h => hxne' h.1) ?_⟩
      rw [WeierstrassCurve.Affine.slope_of_X_ne hxne', modMul, modInt_zmod]
      push_cast
      rw [invMod_zmod hprime (invMod_ok hd), modSub, modSub, modInt_zmod, modInt_zmod]
      push_cast
      rw [div_eq_mul_inv]

/-- The point_adder is the addition of the group (spec/41_point_ops.md R124, R125). -/
theorem addPoints_toGroup {P Q : Point} (hP : onCurve P = true) (hQ : onCurve Q = true) :
    ∃ R, addPoints P Q = .ok R ∧ onCurve R = true ∧ R.toGroup = P.toGroup + Q.toGroup := by
  unfold addPoints
  rw [hP, hQ]
  cases P with
  | inf => exact ⟨Q, rfl, hQ, (zero_add _).symm⟩
  | fin x y =>
    cases Q with
    | inf => exact ⟨_, rfl, hP, (add_zero _).symm⟩
    | fin x' y' => exact addFinite_spec hP hQ

/-- The negative of a point on the curve is on the curve and is the group's negative (spec/41_point_ops.md R122). -/
theorem negPoint_toGroup {P : Point} (hP : onCurve P = true) :
    onCurve (negPoint P) = true ∧ (negPoint P).toGroup = -P.toGroup := by
  cases P with
  | inf => exact ⟨rfl, neg_zero.symm⟩
  | fin x y =>
    have hprime : Nat.Prime dpP := Fact.out
    obtain ⟨hx, _, he⟩ := (onCurve_fin x y).1 hP
    have hcast : ((modSub dpP y dpP : Nat) : ZMod dpP) = -(y : ZMod dpP) := by simp [modSub]
    have hc : onCurve (.fin x (modSub dpP y dpP)) = true := by
      rw [onCurve_fin]
      exact ⟨hx, modInt_lt _ hprime.pos, by rw [hcast, neg_sq, he]⟩
    refine ⟨hc, ?_⟩
    show (Point.fin x (modSub dpP y dpP)).toGroup = _
    rw [toGroup_fin (onCurve_nonsingular hc), toGroup_fin (onCurve_nonsingular hP), WeierstrassCurve.Affine.Point.neg_some]
    congr 1
    rw [hcast]; simp [secpCurve, WeierstrassCurve.Affine.negY]

end

/-- Off the curve the point_adder raises, whichever point it is (spec/41_point_ops.md R124). -/
theorem addPoints_off {P Q : Point} (h : ¬(onCurve P = true ∧ onCurve Q = true)) :
    addPoints P Q = .error .pointNotOnCurve := by
  unfold addPoints
  rw [if_neg (by simpa using h)]

end Sys2Proof.Machine
end

