-- ==== Sys2Proof/Laws/Scalar.lean ====
section
/-! SUPPORT. The scalar multiplier is the multiple of the group (spec/42_scalar_multiplier.md R140, R141), and the group
of curve points has the prime order n (spec/10_state.md R40). -/

namespace Sys2Proof.Machine

/-- G is on the curve (spec/10_state.md R40). -/
theorem onCurve_baseG : onCurve baseG = true := by decide +kernel

/-- n·G is the identity (spec/10_state.md R38, R40), by evaluation. -/
theorem mulPoint_n_baseG : (match mulPoint dpN baseG with | .ok .inf => true | _ => false) = true := by
  decide +kernel

/-- −7 is not a cube mod p, by evaluation of its power (p − 1)/3. -/
theorem minus_seven_power : expMod (dpP - 7) ((dpP - 1) / 3) dpP ≠ 1 := by decide +kernel

theorem three_dvd : 3 * ((dpP - 1) / 3) = dpP - 1 := by decide +kernel

theorem order_bound : 2 * dpP + 1 < 3 * dpN := by decide +kernel

section
variable [Fact (Nat.Prime dpP)]

/-- The loop adds the low bits of `k` times S to R. -/
theorem mulLoop_toGroup (j k : Nat) {R S : Point} (hR : onCurve R = true) (hS : onCurve S = true) :
    ∃ T, mulLoop j k R S = .ok T ∧ onCurve T = true ∧ T.toGroup = R.toGroup + (k % 2 ^ j) • S.toGroup := by
  induction j generalizing k R S with
  | zero => exact ⟨R, rfl, hR, by simp [Nat.mod_one]⟩
  | succ j ih =>
    obtain ⟨S', hS', hSc, hSg⟩ := addPoints_toGroup hS hS
    have hbits : k % 2 ^ (j + 1) = k % 2 + 2 * (k / 2 % 2 ^ j) := by
      rw [pow_succ', Nat.mod_mul]
    rw [mulLoop]
    by_cases hodd : k % 2 = 1
    · obtain ⟨R', hR', hRc, hRg⟩ := addPoints_toGroup hR hS
      obtain ⟨T, hT, hTc, hTg⟩ := ih (k / 2) hRc hSc
      refine ⟨T, by rw [if_pos hodd, hR', hS']; exact hT, hTc, ?_⟩
      rw [hTg, hRg, hSg, hbits, hodd, ← two_nsmul, ← mul_nsmul, add_nsmul, one_nsmul, add_assoc]
    · obtain ⟨T, hT, hTc, hTg⟩ := ih (k / 2) hR hSc
      refine ⟨T, by rw [if_neg hodd, hS']; exact hT, hTc, ?_⟩
      rw [hTg, hSg, hbits, show k % 2 = 0 by omega, ← two_nsmul, ← mul_nsmul, zero_add]

/-- Mul is the multiple of the group (spec/42_scalar_multiplier.md R140, R141). -/
theorem mulPoint_toGroup (k : Nat) {Q : Point} (hQ : onCurve Q = true) :
    ∃ T, mulPoint k Q = .ok T ∧ onCurve T = true ∧ T.toGroup = k • Q.toGroup := by
  obtain ⟨T, hT, hTc, hTg⟩ := mulLoop_toGroup (bitlen k) k (R := .inf) rfl hQ
  refine ⟨T, by rw [mulPoint, if_pos hQ, hT], hTc, ?_⟩
  rw [hTg, Nat.mod_eq_of_lt (bitlen_bound k), toGroup_inf, zero_add]

/-- What Mul answers, read back. -/
theorem mulPoint_ok {k : Nat} {Q T : Point} (hQ : onCurve Q = true) (h : mulPoint k Q = .ok T) :
    onCurve T = true ∧ T.toGroup = k • Q.toGroup := by
  obtain ⟨T', hT', hTc, hTg⟩ := mulPoint_toGroup k hQ
  rw [h] at hT'
  cases hT'
  exact ⟨hTc, hTg⟩

theorem baseG_order_nsmul : dpN • baseG.toGroup = 0 := by
  obtain ⟨T, hT, _, hTg⟩ := mulPoint_toGroup dpN onCurve_baseG
  have h := mulPoint_n_baseG
  rw [hT] at h
  cases T with
  | inf => rw [← hTg, toGroup_inf]
  | fin x y => exact absurd h (by simp)

theorem baseG_ne_zero : baseG.toGroup ≠ 0 := fun h => by
  have := (toGroup_eq_zero onCurve_baseG).1 h
  simp [baseG] at this

/-- G has order exactly n. -/
theorem addOrderOf_baseG : addOrderOf baseG.toGroup = dpN := by
  have : Fact dpN.Prime := ⟨dpN_prime⟩
  exact addOrderOf_eq_prime baseG_order_nsmul baseG_ne_zero

/-- No curve point has y = 0 (spec/10_state.md R40). -/
theorem no_point_y_zero (x : ZMod dpP) : ¬ secpCurve.Nonsingular x 0 := by
  rw [secp_nonsingular]
  intro h
  have hp : Nat.Prime dpP := Fact.out
  have hle : 7 ≤ dpP := by decide +kernel
  have hx3 : x ^ 3 = ((dpP - 7 : Nat) : ZMod dpP) := by
    rw [Nat.cast_sub hle, ZMod.natCast_self]
    linear_combination -h
  have hx : x ≠ 0 := by
    rintro rfl
    have h7 : ((7 : Nat) : ZMod dpP) = 0 := by simpa using h.symm
    exact natCast_ne_zero_of_lt (by norm_num) (by decide +kernel) h7
  apply minus_seven_power
  refine natCast_inj_of_lt (expMod_lt _ _ _ hp.one_lt) hp.one_lt ?_
  rw [expMod_zmod _ _ _ hp.one_lt, ← hx3, ← pow_mul, three_dvd, ZMod.pow_card_sub_one_eq_one hx, Nat.cast_one]

/-- A point is told from its x coordinate and one bit. -/
def pointCode : secpCurve.Point → Option (ZMod dpP × Bool)
  | .zero => none
  | .some x y _ => some (x, decide (y.val < (-y).val))

theorem pointCode_injective : Function.Injective pointCode := by
  intro A B h
  cases A with
  | zero =>
    cases B with
    | zero => rfl
    | some x y hy => simp [pointCode] at h
  | some x y hy =>
    cases B with
    | zero => simp [pointCode] at h
    | some x' y' hy' =>
      simp only [pointCode, Option.some.injEq, Prod.mk.injEq, decide_eq_decide] at h
      obtain ⟨rfl, hb⟩ := h
      have he := (secp_nonsingular _ _).1 hy
      have he' := (secp_nonsingular _ _).1 hy'
      rw [← he', sq_eq_sq_iff_eq_or_eq_neg] at he
      rcases he with rfl | h
      · rfl
      · subst h
        rw [neg_neg] at hb
        have hv : (-y').val = y'.val := by omega
        have : -y' = y' := ZMod.val_injective _ hv
        congr 1

theorem points_finite : Finite secpCurve.Point := Finite.of_injective _ pointCode_injective

/-- There are at most 2p + 1 points. -/
theorem points_card_le : Nat.card secpCurve.Point ≤ 2 * dpP + 1 := by
  refine (Nat.card_le_card_of_injective _ pointCode_injective).trans_eq ?_
  rw [Nat.card_eq_fintype_card, Fintype.card_option, Fintype.card_prod, ZMod.card, Fintype.card_bool, mul_comm]

/-- The group has no element of order 2. -/
theorem no_order_two (A : secpCurve.Point) (h : addOrderOf A = 2) : False := by
  have h2 : 2 • A = 0 := h ▸ addOrderOf_nsmul_eq_zero A
  have h0 : A ≠ 0 := by rintro rfl; simp at h
  cases A with
  | zero => exact h0 rfl
  | some x y hy =>
    rw [two_nsmul, ← eq_neg_iff_add_eq_zero, WeierstrassCurve.Affine.Point.neg_some] at h2
    have hyy : y = -y := by
      have := ((WeierstrassCurve.Affine.Point.some.injEq ..).mp h2).2
      simpa [WeierstrassCurve.Affine.negY, secpCurve] using this
    have h2y : ((2 : Nat) : ZMod dpP) * y = 0 := by push_cast; linear_combination hyy
    rcases mul_eq_zero.1 h2y with h | h
    · exact natCast_ne_zero_of_lt (by norm_num) one_lt_two_dpP h
    · subst h; exact no_point_y_zero x hy
where
  one_lt_two_dpP : 2 < dpP := by decide +kernel

/-- The group of curve points has order n (spec/10_state.md R40): the cofactor is 1. -/
theorem points_card : Nat.card secpCurve.Point = dpN := by
  have := points_finite
  obtain ⟨m, hm⟩ : dpN ∣ Nat.card secpCurve.Point := addOrderOf_baseG ▸ addOrderOf_dvd_natCard _
  have hle := points_card_le
  have hb := order_bound
  have hpos : 0 < Nat.card secpCurve.Point := Nat.card_pos
  have hm3 : m < 3 := by
    by_contra h
    have : dpN * 3 ≤ dpN * m := Nat.mul_le_mul_left _ (by omega)
    omega
  have hm0 : m ≠ 0 := by rintro rfl; omega
  have hm2 : m ≠ 2 := by
    rintro rfl
    have hf : Fact (Nat.Prime 2) := ⟨Nat.prime_two⟩
    obtain ⟨A, hA⟩ := exists_prime_addOrderOf_dvd_card' (G := secpCurve.Point) 2 ⟨dpN, by omega⟩
    exact no_order_two A hA
  have : m = 1 := by omega
  rw [hm, this, mul_one]

/-- Every point of the curve is killed by n (spec/10_state.md R40). -/
theorem order_nsmul (A : secpCurve.Point) : dpN • A = 0 := by
  have := points_finite
  rw [← points_card]
  exact card_nsmul_eq_zero'

/-- Multiples depend on k mod n only. -/
theorem nsmul_mod (k : Nat) (A : secpCurve.Point) : (k % dpN) • A = k • A := by
  conv_rhs => rw [← Nat.mod_add_div k dpN, add_nsmul, mul_nsmul, order_nsmul, nsmul_zero, add_zero]

/-- A multiple of a point other than the identity is the identity only for multiples of n. -/
theorem nsmul_eq_zero_iff {A : secpCurve.Point} (hA : A ≠ 0) (k : Nat) : k • A = 0 ↔ dpN ∣ k := by
  have hf : Fact dpN.Prime := ⟨dpN_prime⟩
  rw [← addOrderOf_eq_prime (order_nsmul A) hA]
  exact addOrderOf_dvd_iff_nsmul_eq_zero.symm

end

/-! The properties of Machine/Domain.lean (spec/10_state.md R40). -/

theorem fitsRegister_iff (v : Nat) : fitsRegister v ↔ v < 2 ^ 256 := by
  rw [fitsRegister, BitVec.toNat_ofNat]
  exact ⟨fun h => h ▸ Nat.mod_lt _ (by positivity), Nat.mod_eq_of_lt⟩

theorem constants_are_prime : constantsArePrime := ⟨dpP_prime, dpN_prime, dpN_lt_dpP, dpP_lt⟩

theorem values_fit_registers : valuesFitRegisters := by
  have hN := dpN_lt_dpP.trans dpP_lt
  refine ⟨fun x hx => (fitsRegister_iff x).2 (hx.trans dpP_lt), fun k => (fitsRegister_iff _).2 ?_,
    (fitsRegister_iff _).2 dpP_lt, (fitsRegister_iff _).2 hN⟩
  exact (Nat.mod_lt k (Nat.zero_lt_one.trans one_lt_dpN)).trans hN

/-- The points that pass OnCurve are the points of Mathlib's curve, so there are n of them. -/
theorem group_has_order_n : groupHasOrderN := by
  have hf : Fact (Nat.Prime dpP) := ⟨dpP_prime⟩
  have hcard : Nat.card { Q : Point // onCurve Q = true } = dpN := by
    rw [← points_card]
    refine Nat.card_congr (Equiv.ofBijective (fun Q => Q.1.toGroup) ⟨?_, fun A => ?_⟩)
    · rintro ⟨a, ha⟩ ⟨b, hb⟩ h
      exact Subtype.ext (toGroup_injective ha hb h)
    · obtain ⟨Q, hQ, h⟩ := toGroup_surjective A
      exact ⟨⟨Q, hQ⟩, h⟩
  refine ⟨rfl, hcard, ?_⟩
  rw [hcard, Nat.div_self (Nat.zero_lt_one.trans one_lt_dpN)]
  rfl

theorem no_point_has_y_zero : noPointHasYZero := by
  have hf : Fact (Nat.Prime dpP) := ⟨dpP_prime⟩
  refine ⟨fun x => ?_, by decide +kernel, ?_⟩
  · simp [negPoint, modSub, modInt]
  · rintro x y h rfl
    exact no_point_y_zero _ (by simpa using onCurve_nonsingular h)

end Sys2Proof.Machine
end

