-- ==== Sys2Proof/Laws/Commands.lean ====
section
/-! SUPPORT. What the begin and attempt steps of the commands evaluate to: which errors they raise, which outputs they
name, and that the inner errors of the key, signature and verification commands never arise. -/

namespace Sys2Proof.Machine

theorem scalarInRange_iff (k : Nat) : scalarInRange k = true ↔ 1 ≤ k ∧ k ≤ dpN - 1 := by
  simp [scalarInRange]

theorem scalarInRange_mod {k : Nat} (h : scalarInRange k = true) : k % dpN ≠ 0 := by
  have hn := one_lt_dpN
  rw [scalarInRange_iff] at h
  rw [Nat.mod_eq_of_lt (by omega)]; omega

/-- A point of the group other than the identity is finite. -/
theorem xCoord_eq_none {P : Point} : P.xCoord = none ↔ P = .inf := by cases P <;> simp [Point.xCoord]

/-- A key in range has a finite public key on the curve (spec/43_key_pair_gen.md R153). -/
theorem mulPoint_baseG {k : Nat} (h : scalarInRange k = true) :
    ∃ x y, mulPoint k baseG = .ok (.fin x y) ∧ onCurve (.fin x y) = true := by
  have hf : Fact (Nat.Prime dpP) := ⟨dpP_prime⟩
  obtain ⟨T, hT, hTc, hTg⟩ := mulPoint_toGroup k onCurve_baseG
  cases T with
  | inf =>
    have h0 : k • baseG.toGroup = 0 := by rw [← hTg, toGroup_inf]
    have hd := (nsmul_eq_zero_iff baseG_ne_zero k).1 h0
    exact absurd (Nat.mod_eq_zero_of_dvd hd) (scalarInRange_mod h)
  | fin x y => exact ⟨x, y, hT, hTc⟩

/-- One signing attempt never raises (spec/44_ecdsa_signer.md R162), and what it computes. -/
theorem signWith_spec (z d : Nat) {k : Nat} (h : scalarInRange k = true) :
    ∃ xP yP kInv, mulPoint k baseG = .ok (.fin xP yP) ∧ onCurve (.fin xP yP) = true ∧ invMod k dpN = .ok kInv ∧
      signWith z d k = .ok (if xP % dpN = 0 then none
        else if kInv * ((z + xP % dpN * d) % dpN) % dpN = 0 then none
        else some (xP % dpN, kInv * ((z + xP % dpN * d) % dpN) % dpN)) := by
  obtain ⟨xP, yP, hP, hc⟩ := mulPoint_baseG h
  have hi := invMod_ok (scalarInRange_mod h)
  refine ⟨xP, yP, _, hP, hc, hi, ?_⟩
  simp only [signWith, hP, Point.xCoord, hi, modMul_nat]
  split
  · rfl
  · split <;> rfl

/-- SIGN's attempts wait again with the same context, or commit r and s. -/
theorem attemptSign_cases (z d w : Word256) :
    attemptSign z d w = .needRng (.sign z d) ∨
    ∃ xP yP kInv, scalarInRange w.toNat = true ∧ mulPoint w.toNat baseG = .ok (.fin xP yP) ∧
      onCurve (.fin xP yP) = true ∧ invMod w.toNat dpN = .ok kInv ∧ xP % dpN ≠ 0 ∧
      kInv * ((z.toNat + xP % dpN * d.toNat) % dpN) % dpN ≠ 0 ∧
      attemptSign z d w = .ok
        { res0 := some (BitVec.ofNat 256 (xP % dpN))
          res1 := some (BitVec.ofNat 256 (kInv * ((z.toNat + xP % dpN * d.toNat) % dpN) % dpN)) } := by
  unfold attemptSign
  split
  · next h =>
    obtain ⟨xP, yP, kInv, hP, hc, hi, hs⟩ := signWith_spec z.toNat d.toNat h
    rw [hs]
    by_cases h1 : xP % dpN = 0
    · left; rw [if_pos h1]
    · by_cases h2 : kInv * ((z.toNat + xP % dpN * d.toNat) % dpN) % dpN = 0
      · left; rw [if_neg h1, if_pos h2]
      · right
        exact ⟨xP, yP, kInv, h, hP, hc, hi, h1, h2, by rw [if_neg h1, if_neg h2]⟩
  · exact .inl rfl

/-- KEYPAIR's attempt on an accepted word. -/
theorem attemptKeypair_accept {w : Word256} (h : scalarInRange w.toNat = true) :
    ∃ x y, mulPoint w.toNat baseG = .ok (.fin x y) ∧ onCurve (.fin x y) = true ∧
      attemptKeypair w = .ok { res0 := some w, point := some (.fin x y) } := by
  obtain ⟨x, y, hT, hTc⟩ := mulPoint_baseG h
  exact ⟨x, y, hT, hTc, by simp [attemptKeypair, h, hT, Result.ofExcept]⟩

/-- An attempt waits on with the same context, or commits outputs of its command; it never raises. -/
theorem attemptOf_cases (w : Waiting) (x : Word256) :
    attemptOf w x = .needRng w ∨ ∃ o, attemptOf w x = .ok o ∧ o.vok = none ∧
      (o.res0 ≠ none → .res0 ∈ w.instr.outRegs) ∧ (o.res1 ≠ none → .res1 ∈ w.instr.outRegs) ∧
      (o.point ≠ none → .rx ∈ w.instr.outRegs ∧ .ry ∈ w.instr.outRegs ∧ .rinf ∈ w.instr.outRegs) := by
  cases w with
  | genpriv =>
    simp only [attemptOf, attemptGenpriv, Waiting.instr, Instr.outRegs]
    split
    · right; exact ⟨_, rfl, rfl, by simp, by simp, by simp⟩
    · left; rfl
  | keypair =>
    by_cases h : scalarInRange x.toNat = true
    · obtain ⟨a, b, _, _, he⟩ := attemptKeypair_accept h
      right; exact ⟨_, he, rfl, by simp [Waiting.instr, Instr.outRegs], by simp, by simp [Waiting.instr, Instr.outRegs]⟩
    · left; simp [attemptOf, attemptKeypair, h]
  | sign z d =>
    rcases attemptSign_cases z d x with h | ⟨_, _, _, _, _, _, _, _, _, h⟩
    · exact .inl h
    · right; exact ⟨_, h, rfl, by simp [Waiting.instr, Instr.outRegs], by simp [Waiting.instr, Instr.outRegs], by simp⟩

/-- AddPoints raises nothing but POINT_NOT_ON_CURVE (spec/41_point_ops.md R125). -/
theorem addPoints_error {P Q : Point} {c : ErrCode} (h : addPoints P Q = .error c) : c = .pointNotOnCurve := by
  have hf : Fact (Nat.Prime dpP) := ⟨dpP_prime⟩
  by_cases hc : onCurve P = true ∧ onCurve Q = true
  · obtain ⟨R, hR, _⟩ := addPoints_toGroup hc.1 hc.2
    rw [hR] at h; cases h
  · rw [addPoints_off hc] at h; cases h; rfl

/-- Mul raises nothing but POINT_NOT_ON_CURVE (spec/42_scalar_multiplier.md R141). -/
theorem mulPoint_error {k : Nat} {Q : Point} {c : ErrCode} (h : mulPoint k Q = .error c) : c = .pointNotOnCurve := by
  have hf : Fact (Nat.Prime dpP) := ⟨dpP_prime⟩
  by_cases hc : onCurve Q = true
  · obtain ⟨R, hR, _⟩ := mulPoint_toGroup k hc
    rw [hR] at h; cases h
  · rw [mulPoint, if_neg hc] at h; cases h; rfl

/-- The parts of a valid signature (spec/45_ecdsa_verifier.md R171, step 1). -/
theorem signatureValid_iff (r s : Nat) (H : Point) : signatureValid r s H = true ↔
    H ≠ .inf ∧ onCurve H = true ∧ (1 ≤ r ∧ r ≤ dpN - 1) ∧ (1 ≤ s ∧ s ≤ dpN - 1) := by
  simp only [signatureValid, Bool.and_eq_true, scalarInRange_iff, Bool.not_eq_true', and_assoc]
  cases H <;> simp [Point.isInf]

/-- On validated inputs the verifier's point is computed without an error (spec/45_ecdsa_verifier.md R172). -/
theorem verifyPoint_spec (z r : Nat) {s : Nat} {H : Point} (hs : scalarInRange s = true) (hH : onCurve H = true) :
    ∃ w U1 U2 W, invMod s dpN = .ok w ∧ mulPoint (w * z % dpN) baseG = .ok U1 ∧ mulPoint (w * r % dpN) H = .ok U2 ∧
      addPoints U1 U2 = .ok W ∧ onCurve U1 = true ∧ onCurve U2 = true ∧ verifyPoint z r s H = .ok W := by
  have hf : Fact (Nat.Prime dpP) := ⟨dpP_prime⟩
  have hi := invMod_ok (scalarInRange_mod hs)
  obtain ⟨U1, h1, hc1, _⟩ := mulPoint_toGroup (expMod s (dpN - 2) dpN * z % dpN) onCurve_baseG
  obtain ⟨U2, h2, hc2, _⟩ := mulPoint_toGroup (expMod s (dpN - 2) dpN * r % dpN) hH
  obtain ⟨W, hW, _, _⟩ := addPoints_toGroup hc1 hc2
  exact ⟨_, U1, U2, W, hi, h1, h2, hW, hc1, hc2, by
    simp only [verifyPoint, hi, modMul_nat, h1, h2, hW]⟩

/-- VERIFY's begin step always commits VOK (spec/45_ecdsa_verifier.md R172). -/
theorem beginVerify_ok (sn : Snapshot) : ∃ b, beginVerify sn = .ok { vok := some b } := by
  unfold beginVerify
  split
  · next h =>
    have h' := (signatureValid_iff _ _ _).1 h
    obtain ⟨w, U1, U2, W, _, _, _, _, _, _, hv⟩ :=
      verifyPoint_spec sn.opa.toNat sn.opb.toNat ((scalarInRange_iff _).2 h'.2.2.2) h'.2.1
    exact ⟨_, by rw [hv]; rfl⟩
  · exact ⟨false, rfl⟩

/-- The errors the begin steps raise (spec/60_exceptions.md R200). -/
theorem beginOf_raise {i : Instr} {sn : Snapshot} {c : ErrCode} (h : beginOf i sn = .raise c) :
    ((i = .padd ∨ i = .pdbl ∨ i = .smul) ∧ c = .pointNotOnCurve) ∨
    ((i = .invP ∨ i = .invN) ∧ c = .invalidInverse) ∨
    ((i = .derive ∨ i = .sign) ∧ c = .operandOutOfRange) := by
  have ofExcept_raise {α : Type} {r : Except ErrCode α} {f : α → Outs} (h : Result.ofExcept r f = .raise c) :
      r = .error c := by
    cases r <;> simp_all [Result.ofExcept]
  cases i with
  | invP => exact .inr (.inl ⟨.inl rfl, ((invMod_error_iff _ _ _).1 (ofExcept_raise h)).2⟩)
  | invN => exact .inr (.inl ⟨.inr rfl, ((invMod_error_iff _ _ _).1 (ofExcept_raise h)).2⟩)
  | expP => cases h
  | expN => cases h
  | padd => exact .inl ⟨.inl rfl, addPoints_error (ofExcept_raise h)⟩
  | pdbl => exact .inl ⟨.inr (.inl rfl), addPoints_error (ofExcept_raise h)⟩
  | smul => exact .inl ⟨.inr (.inr rfl), mulPoint_error (ofExcept_raise h)⟩
  | genpriv => cases h
  | keypair => cases h
  | derive =>
    simp only [beginOf, beginDerive] at h
    split at h
    · next hr =>
      obtain ⟨x, y, hT, _⟩ := mulPoint_baseG hr
      rw [hT] at h; cases h
    · cases h; exact .inr (.inr ⟨.inl rfl, rfl⟩)
  | sign =>
    simp only [beginOf, beginSign] at h
    split at h <;> cases h
    exact .inr (.inr ⟨.inr rfl, rfl⟩)
  | verify =>
    obtain ⟨b, hb⟩ := beginVerify_ok sn
    rw [beginOf, hb] at h; cases h

/-- The outputs a begin step commits are of its command's OutRegs, all of them (spec/10_state.md R46,
spec/30_encoding.md R82). -/
theorem beginOf_ok {i : Instr} {sn : Snapshot} {o : Outs} (h : beginOf i sn = .ok o) :
    (o.res0 ≠ none ↔ .res0 ∈ i.outRegs) ∧ (o.res1 ≠ none ↔ .res1 ∈ i.outRegs) ∧
    (o.point ≠ none ↔ .rx ∈ i.outRegs) ∧ (o.point ≠ none ↔ .ry ∈ i.outRegs) ∧ (o.point ≠ none ↔ .rinf ∈ i.outRegs) ∧
    (o.vok ≠ none ↔ i = .verify) := by
  have ofExcept_ok {α : Type} {r : Except ErrCode α} {f : α → Outs} (h : Result.ofExcept r f = .ok o) :
      ∃ a, o = f a := by
    cases r with
    | error c => cases h
    | ok a => cases h; exact ⟨a, rfl⟩
  cases i with
  | invP => obtain ⟨a, rfl⟩ := ofExcept_ok h; simp [Instr.outRegs]
  | invN => obtain ⟨a, rfl⟩ := ofExcept_ok h; simp [Instr.outRegs]
  | expP => cases h; simp [Instr.outRegs]
  | expN => cases h; simp [Instr.outRegs]
  | padd => obtain ⟨a, rfl⟩ := ofExcept_ok h; simp [Instr.outRegs, pointOuts]
  | pdbl => obtain ⟨a, rfl⟩ := ofExcept_ok h; simp [Instr.outRegs, pointOuts]
  | smul => obtain ⟨a, rfl⟩ := ofExcept_ok h; simp [Instr.outRegs, pointOuts]
  | genpriv => cases h
  | keypair => cases h
  | derive =>
    simp only [beginOf, beginDerive] at h
    split at h
    · obtain ⟨a, rfl⟩ := ofExcept_ok h; simp [Instr.outRegs, pointOuts]
    · cases h
  | sign =>
    simp only [beginOf, beginSign] at h
    split at h <;> cases h
  | verify =>
    obtain ⟨b, hb⟩ := beginVerify_ok sn
    rw [beginOf, hb] at h; cases h; simp [Instr.outRegs]

/-- The begin steps that wait (spec/43_key_pair_gen.md R152, R154, spec/44_ecdsa_signer.md R161). -/
theorem beginOf_needRng {i : Instr} {sn : Snapshot} {w : Waiting} (h : beginOf i sn = .needRng w) :
    w.instr = i ∧ ∀ z d, w = .sign z d → scalarInRange d.toNat = true := by
  have ofExcept_not {α : Type} {r : Except ErrCode α} {f : α → Outs} (h : Result.ofExcept r f = .needRng w) : False := by
    cases r <;> simp_all [Result.ofExcept]
  cases i with
  | invP => exact (ofExcept_not h).elim
  | invN => exact (ofExcept_not h).elim
  | expP => cases h
  | expN => cases h
  | padd => exact (ofExcept_not h).elim
  | pdbl => exact (ofExcept_not h).elim
  | smul => exact (ofExcept_not h).elim
  | genpriv => cases h; exact ⟨rfl, fun _ _ h => by cases h⟩
  | keypair => cases h; exact ⟨rfl, fun _ _ h => by cases h⟩
  | derive =>
    simp only [beginOf, beginDerive] at h
    split at h
    · exact (ofExcept_not h).elim
    · cases h
  | sign =>
    simp only [beginOf, beginSign] at h
    split at h
    · next hr => cases h; exact ⟨rfl, fun _ _ h => by cases h; exact hr⟩
    · cases h
  | verify =>
    obtain ⟨b, hb⟩ := beginVerify_ok sn
    rw [beginOf, hb] at h; cases h

end Sys2Proof.Machine
end

