-- ==== Sys2Proof/Laws/PerInstr.lean ====
section
/-! SUPPORT. What holds of every command as syntax, one lemma per constructor. -/

namespace Sys2Proof.Laws.FieldsWellFormed

/-- The fields of a command pass every check, its word uses bits 4:0 only and decodes to it, and the operation with
the MSEL bit of the word names it again (spec/30_encoding.md R80, R84, R85). -/
def Statement (i : Instr) : Prop :=
  i.wf = true ∧ (encode i).toNat < 2 ^ 5 ∧ fieldsOf (encode i) = i.fields ∧ decode (encode i) = .instr i ∧
    Instr.ofOp i.op i.fields.msel = i

theorem invP : Statement .invP := by unfold Statement; decide
theorem invN : Statement .invN := by unfold Statement; decide
theorem expP : Statement .expP := by unfold Statement; decide
theorem expN : Statement .expN := by unfold Statement; decide
theorem padd : Statement .padd := by unfold Statement; decide
theorem pdbl : Statement .pdbl := by unfold Statement; decide
theorem smul : Statement .smul := by unfold Statement; decide
theorem genpriv : Statement .genpriv := by unfold Statement; decide
theorem derive : Statement .derive := by unfold Statement; decide
theorem keypair : Statement .keypair := by unfold Statement; decide
theorem sign : Statement .sign := by unfold Statement; decide
theorem verify : Statement .verify := by unfold Statement; decide

end Sys2Proof.Laws.FieldsWellFormed
end

