-- ==== Sys2Proof/Laws/Run.lean ====
section
/-! SUPPORT. Runs of several steps, one step at a time, what a bus write leaves alone, and the eight words of a
register. -/

namespace Sys2Proof.Machine

/-- No steps. -/
theorem run_zero (s : State) : Host.Core.run Sys2Proof.core 0 s = .next s := Host.Core.run.eq_1 Sys2Proof.core s

/-- One step of a run, where it answers next. -/
theorem run_next (k : Nat) {s t : State} (h : step s = .next t) :
    Host.Core.run Sys2Proof.core (k + 1) s = Host.Core.run Sys2Proof.core k t := by
  have h' : Sys2Proof.core.step s = .next t := h
  refine (Host.Core.run.eq_2 Sys2Proof.core s k).trans ?_
  rw [h']

/-- A pending bus write. -/
theorem step_write {s : State} {off : Offset} {width : Nat} {v : Word32} {rest : List Event}
    (h : s.pending = .write off width v :: rest) :
    step s = .next (({ s with pending := rest } : State).busWrite off width v) := by rw [step_cons h]; rfl

/-- A pending bus read. -/
theorem step_read {s : State} {off : Offset} {width : Nat} {rest : List Event} (h : s.pending = .read off width :: rest) :
    step s = .next (({ s with pending := rest } : State).respond (({ s with pending := rest } : State).busRead off width)) := by
  rw [step_cons h]; rfl

/-- The sequencer's turn as an event. -/
theorem step_tick {s : State} {rest : List Event} (h : s.pending = .tick :: rest) :
    step s = sequencerTurn { s with pending := rest } := by rw [step_cons h]; rfl

/-- A pending reset (spec/70_reset_and_hazards.md R230). -/
theorem step_reset {s : State} {rest : List Event} (h : s.pending = .reset :: rest) :
    step s = .next ({ s with pending := rest } : State).resetEvent := by rw [step_cons h]; rfl

/-- A write to a mapped, writable register (spec/20_memory.md R64). -/
theorem busWrite_mapped {s : State} {off : Offset} {v : Word32} {r : RegSel} (h : regAt off.toNat = some r)
    (hr : readOnlyReg r = false) : s.busWrite off 32 v = (s.writeReg r v).respond (.write .okay) := by
  simp [State.busWrite, accessed, h, hr]

/-- A refused write (spec/20_memory.md R65). -/
theorem busWrite_refused {s : State} {off : Offset} {width : Nat} {v : Word32}
    (h : ∀ r, accessed off width = some r → readOnlyReg r = true) :
    s.busWrite off width v = s.respond (.write .slverr) := by
  unfold State.busWrite
  split
  · rfl
  · next r hr => rw [if_pos (h r hr)]

/-- A bus write while a command runs leaves the sequencer, the snapshot and the word on the port alone
(spec/10_state.md R43, R50). -/
theorem busWrite_busy {s : State} (off : Offset) (width : Nat) (v : Word32) (hb : s.status.busy = true) :
    (s.busWrite off width v).seq = s.seq ∧ (s.busWrite off width v).snap = s.snap ∧
      (s.busWrite off width v).rngIn = s.rngIn ∧ (s.busWrite off width v).status.busy = true := by
  unfold State.busWrite
  split
  · exact ⟨rfl, rfl, rfl, hb⟩
  · split
    · exact ⟨rfl, rfl, rfl, hb⟩
    · next r _ _ =>
      cases r with
      | cmd => simp only [State.writeReg]; rw [cmdWrite_busy v hb]; exact ⟨rfl, rfl, rfl, hb⟩
      | word r i => cases r <;> exact ⟨rfl, rfl, rfl, hb⟩
      | id => exact ⟨rfl, rfl, rfl, hb⟩
      | ctrl => exact ⟨rfl, rfl, rfl, hb⟩
      | status => exact ⟨rfl, rfl, rfl, hb⟩
      | pflags => exact ⟨rfl, rfl, rfl, hb⟩
      | rflags => exact ⟨rfl, rfl, rfl, hb⟩

/-- A number below 2^256 is the sum of its eight 32-bit digits (spec/20_memory.md R66). -/
theorem sum_of_words (x : Nat) (h : x < 2 ^ 256) :
    x = x / 2 ^ (32 * 0) % 2 ^ 32 * 2 ^ (32 * 0) + x / 2 ^ (32 * 1) % 2 ^ 32 * 2 ^ (32 * 1) +
      x / 2 ^ (32 * 2) % 2 ^ 32 * 2 ^ (32 * 2) + x / 2 ^ (32 * 3) % 2 ^ 32 * 2 ^ (32 * 3) +
      x / 2 ^ (32 * 4) % 2 ^ 32 * 2 ^ (32 * 4) + x / 2 ^ (32 * 5) % 2 ^ 32 * 2 ^ (32 * 5) +
      x / 2 ^ (32 * 6) % 2 ^ 32 * 2 ^ (32 * 6) + x / 2 ^ (32 * 7) % 2 ^ 32 * 2 ^ (32 * 7) := by
  have e : ∀ k y : Nat, y / 2 ^ (32 * k) / 2 ^ 32 = y / 2 ^ (32 * (k + 1)) := by
    intro k y; rw [Nat.div_div_eq_div_mul, ← pow_add]; rfl
  have d : ∀ k : Nat, x / 2 ^ (32 * k) = x / 2 ^ (32 * k) % 2 ^ 32 + 2 ^ 32 * (x / 2 ^ (32 * (k+1))) := by
    intro k; rw [← e]; exact (Nat.mod_add_div _ _).symm
  have h8 : x / 2 ^ (32 * 8) = 0 := Nat.div_eq_of_lt h
  have h7 := d 7
  simp only [Nat.reduceAdd] at h7
  rw [h8] at h7
  have h0 := d 0; have h1 := d 1; have h2 := d 2; have h3 := d 3; have h4 := d 4; have h5 := d 5; have h6 := d 6
  simp only [Nat.reduceAdd, Nat.mul_zero, pow_zero, Nat.div_one] at *
  generalize x / 2 ^ (32 * 1) = y1 at *
  generalize x / 2 ^ (32 * 2) = y2 at *
  generalize x / 2 ^ (32 * 3) = y3 at *
  generalize x / 2 ^ (32 * 4) = y4 at *
  generalize x / 2 ^ (32 * 5) = y5 at *
  generalize x / 2 ^ (32 * 6) = y6 at *
  generalize x / 2 ^ (32 * 7) = y7 at *
  generalize y7 % 2 ^ 32 = z7 at *
  generalize y6 % 2 ^ 32 = z6 at *
  generalize y5 % 2 ^ 32 = z5 at *
  generalize y4 % 2 ^ 32 = z4 at *
  generalize y3 % 2 ^ 32 = z3 at *
  generalize y2 % 2 ^ 32 = z2 at *
  generalize y1 % 2 ^ 32 = z1 at *
  generalize x % 2 ^ 32 = z0 at *
  subst h7 h6 h5 h4 h3 h2 h1
  rw [h0]; ring

/-- A sum over the eight words. -/
theorem sum_range8 (f : Nat → Nat) :
    ((List.range 8).map f).sum = f 0 + (f 1 + (f 2 + (f 3 + (f 4 + (f 5 + (f 6 + f 7)))))) := by
  simp [List.range, List.range.loop]

/-- GET256 of the eight words (spec/30_encoding.md R88). -/
theorem assemble_range8 (g : Nat → Word32) : assemble ((List.range 8).map g) =
    (g 0).toNat + 2 ^ 32 * ((g 1).toNat + 2 ^ 32 * ((g 2).toNat + 2 ^ 32 * ((g 3).toNat + 2 ^ 32 * ((g 4).toNat +
      2 ^ 32 * ((g 5).toNat + 2 ^ 32 * ((g 6).toNat + 2 ^ 32 * (g 7).toNat)))))) := by
  simp [assemble, List.range, List.range.loop]

end Sys2Proof.Machine
end

