-- ==== Sys2Proof/Tests/Slice0.lean ====
section
/-! SUPPORT. Small tests: ill-formed words, decoding, one or two single steps of each command with values from
spec/95_test_vectors.md, bus accesses; and, for each statement with hypotheses, a witness that meets them. -/

namespace Sys2Proof.Tests

open Sys2Proof Sys2Proof.Machine

-- One theorem after another: many at once need more threads than the check's memory limit leaves room for.
set_option Elab.async false

/-! ## Helpers -/

/-- A step ends in a next state of which `f` holds. -/
def nextIs (o : Host.Outcome State Fault Refusal) (f : State → Bool) : Bool :=
  match o with
  | .next t => f t
  | .fault _ => false
  | .refused _ => false

theorem nextIs_spec {o : Host.Outcome State Fault Refusal} {f : State → Bool} (h : nextIs o f = true) :
    ∃ t, o = .next t ∧ f t = true := by
  cases o with
  | next t => exact ⟨t, rfl, h⟩
  | fault r => cases r
  | refused r => cases h

/-- A command just accepted with this snapshot, the sequencer to move. -/
def running (op : Op) (sn : Snapshot) (v : Word32) : State :=
  { State.reset with
    seq := .run op, snap := sn, cmdLast := v, status := { State.reset.status with busy := true } }

/-- A command that waits for a random word, which is next. -/
def waiting (w : Waiting) (v : Word32) (events : List Event) : State :=
  { State.reset with
    seq := .waitRng w, cmdLast := v, status := { State.reset.status with busy := true, rngwait := true }
    pending := events }

def sn (a b c : Nat) (p1 p2 : Point) (m : Bool) : Snapshot :=
  { opa := BitVec.ofNat 256 a, opb := BitVec.ofNat 256 b, opc := BitVec.ofNat 256 c, p1 := p1, p2 := p2, msel := m }

/-- The reset state with events of the environment to come. -/
def coming (events : List Event) : State := { State.reset with pending := events }

/-- RX, RY and RINF. -/
def State.point (t : State) : Nat × Nat × Bool := (t.rx.toNat, t.ry.toNat, t.rinf)

def twoG : Point :=
  .fin 0xC6047F9441ED7D6D3045406E95C07CD85C778E4B8CEF3CA7ABAC09B95C709EE5
    0x1AE168FEA63DC339A3C58419466CEAEEF7F632653266D0E1236431A950CFE52A

def threeG : Nat × Nat × Bool :=
  (0xF9308A019258C31049344F85F89D5229B531C845836F99B08601F113BCE036F9,
    0x388F7B0F632DE8140FE337E62A37F3566500A99934C2231B6CB9FD7584B8E672, false)

/-- −G (spec/95_test_vectors.md). -/
def negG : Point := .fin dpGx 0xB7C52588D95C3B9AA25B0403F1EEF75702E84BB7597AABE663B82F6F04EF2777

/-- G′, off the curve (spec/95_test_vectors.md). -/
def offG : Point := .fin dpGx 0x483ADA7726A3C4655DA4FBFC0E1108A8FD17B448A68554199C47D08FFB10D4B9

def d0 : Nat := 0xCEF12D16C863DC528BF0194C6B48C6CBCD9DAC87DEECC2CBDE920AC97361D9EE

/-- z_s of V-SIGN-05. -/
def zS : Nat := 0x06574CA75E192D0573FCD3BA85223A9297FB106D319669E4E3879B743BF4ED37

/-! ## Well-formedness: an ill-formed term for each check -/

theorem test_rsvZero_refuses : (CmdFields.mk 0x1 false 1).rsvZero = false ∧ (CmdFields.mk 0x1 false 1).legal = false := by
  decide
theorem test_opcAssigned_refuses : (CmdFields.mk 0x0 false 0).opcAssigned = false ∧
    (CmdFields.mk 0xB false 0).opcAssigned = false ∧ (CmdFields.mk 0xF false 0).legal = false := by decide
theorem test_mselAllowed_refuses : (CmdFields.mk 0x3 true 0).mselAllowed = false ∧
    (CmdFields.mk 0xA true 0).legal = false := by decide

/-! ## Decoding: words written out from spec/30_encoding.md R80, R84 (RSV, MSEL, OPC) -/

theorem test_decode_invP : decode ((0 : BitVec 27) ++ 0b0#1 ++ 0b0001#4) = .instr .invP := by decide
theorem test_decode_invN : decode ((0 : BitVec 27) ++ 0b1#1 ++ 0b0001#4) = .instr .invN := by decide
theorem test_decode_expP : decode ((0 : BitVec 27) ++ 0b0#1 ++ 0b0010#4) = .instr .expP := by decide
theorem test_decode_expN : decode ((0 : BitVec 27) ++ 0b1#1 ++ 0b0010#4) = .instr .expN := by decide
theorem test_decode_padd : decode ((0 : BitVec 27) ++ 0b0#1 ++ 0b0011#4) = .instr .padd := by decide
theorem test_decode_pdbl : decode ((0 : BitVec 27) ++ 0b0#1 ++ 0b0100#4) = .instr .pdbl := by decide
theorem test_decode_smul : decode ((0 : BitVec 27) ++ 0b0#1 ++ 0b0101#4) = .instr .smul := by decide
theorem test_decode_genpriv : decode ((0 : BitVec 27) ++ 0b0#1 ++ 0b0110#4) = .instr .genpriv := by decide
theorem test_decode_derive : decode ((0 : BitVec 27) ++ 0b0#1 ++ 0b0111#4) = .instr .derive := by decide
theorem test_decode_keypair : decode ((0 : BitVec 27) ++ 0b0#1 ++ 0b1000#4) = .instr .keypair := by decide
theorem test_decode_sign : decode ((0 : BitVec 27) ++ 0b0#1 ++ 0b1001#4) = .instr .sign := by decide
theorem test_decode_verify : decode ((0 : BitVec 27) ++ 0b0#1 ++ 0b1010#4) = .instr .verify := by decide

/-- V-CMD-01 to V-CMD-06. -/
theorem test_decode_illegal : decode 0x00000000 = .illegal .opcUnassigned ∧ decode 0x0000000B = .illegal .opcUnassigned ∧
    decode 0x0000000F = .illegal .opcUnassigned ∧ decode 0x00000013 = .illegal .mselNotAllowed ∧
    decode 0x00000021 = .illegal .rsvNonzero ∧ decode 0xFFFFFFFF = .illegal .rsvNonzero := by decide

theorem test_table_words : decodeTableWord 32 0x11 = some .invN ∧ decodeTableWord 32 0xA = some .verify ∧
    decodeTableWord 32 0x13 = none ∧ decodeTableWord 8 0x05 = some .smul := by decide

theorem test_fetch_word : ((State.reset.withFetchWord 32 0x11).current = some .invN) ∧
    ((State.reset.withFetchWord 32 0x9).current = some .sign) := by decide

/-! ## One step of each command -/

/-- V-INV-01 -/
theorem test_invP : nextIs (step (running .inv (sn 3 0 0 .inf .inf false) 0x01)) (fun t =>
    t.res0 == 0xAAAAAAAAAAAAAAAAAAAAAAAAAAAAAAAAAAAAAAAAAAAAAAAAAAAAAAA9FFFFFD75 && t.status.word == 0x2) = true := by
  decide +kernel
/-- V-INV-09 -/
theorem test_invP_p : nextIs (step (running .inv (sn dpP 0 0 .inf .inf false) 0x01)) (fun t =>
    t.status.word == 0x206) = true := by decide +kernel
/-- V-INV-10 -/
theorem test_invN : nextIs (step (running .inv (sn 3 0 0 .inf .inf true) 0x11)) (fun t =>
    t.res0 == 0xAAAAAAAAAAAAAAAAAAAAAAAAAAAAAAA9D1C9E899CA306AD27FE1945DE0242B81 && t.status.word == 0x2) = true := by
  decide +kernel
/-- V-INV-14 -/
theorem test_invN_zero : nextIs (step (running .inv (sn 0 0 0 .inf .inf true) 0x11)) (fun t =>
    t.status.word == 0x206) = true := by decide +kernel
/-- V-EXP-04 -/
theorem test_expP : nextIs (step (running .exp (sn 2 256 0 .inf .inf false) 0x02)) (fun t =>
    t.res0 == 0x1000003D1 && t.status.word == 0x2) = true := by decide +kernel
/-- V-EXP-01 -/
theorem test_expP_zero : nextIs (step (running .exp (sn 0 0 0 .inf .inf false) 0x02)) (fun t =>
    t.res0 == 1 && t.status.word == 0x2) = true := by decide +kernel
/-- V-EXP-11 -/
theorem test_expN : nextIs (step (running .exp (sn 2 256 0 .inf .inf true) 0x12)) (fun t =>
    t.res0 == 0x14551231950B75FC4402DA1732FC9BEBF) = true := by decide +kernel
/-- V-PADD-01 -/
theorem test_padd : nextIs (step (running .padd (sn 0 0 0 baseG twoG false) 0x03)) (fun t =>
    State.point t == threeG && t.status.word == 0x2) = true := by decide +kernel
/-- V-PADD-11 -/
theorem test_padd_off : nextIs (step (running .padd (sn 0 0 0 .inf offG false) 0x03)) (fun t =>
    t.status.word == 0x106) = true := by decide +kernel
/-- −G of spec/95_test_vectors.md; y = 0; and y = p + 3, whose negative is (p − (p + 3)) mod p = p − 3 (R122, R8) -/
theorem test_negPoint : negPoint baseG = negG ∧ negPoint (.fin 1 0) = .fin 1 0 ∧
    negPoint (.fin 1 (dpP + 3)) = .fin 1 (dpP - 3) := by decide +kernel
/-- V-PDBL-03 -/
theorem test_pdbl : nextIs (step (running .pdbl (sn 0 0 0 negG offG false) 0x04)) (fun t =>
    State.point t == (0xC6047F9441ED7D6D3045406E95C07CD85C778E4B8CEF3CA7ABAC09B95C709EE5,
      0xE51E970159C23CC65C3A7BE6B99315110809CD9ACD992F1EDC9BCE55AF301705, false)) = true := by decide +kernel
/-- V-SMUL-04 -/
theorem test_smul : nextIs (step (running .smul (sn 20 0 0 baseG .inf false) 0x05)) (fun t =>
    State.point t == (0x4CE119C96E2FA357200B559B2F7DD5A5F02D5290AFF74B03F3E471B273211C97,
      0x12BA26DCB10EC1625DA61FA10A844C676162948271D96967450288EE9233DC3A, false)) = true := by decide +kernel
/-- V-SMUL-13 -/
theorem test_smul_off : nextIs (step (running .smul (sn 0 0 0 offG .inf false) 0x05)) (fun t =>
    t.status.word == 0x106) = true := by decide +kernel
/-- V-GEN-02, the word n -/
theorem test_genpriv_reject : nextIs (step (waiting .genpriv 0x06 [.deliver (BitVec.ofNat 256 dpN)])) (fun t =>
    t.status.word == 0x21 && t.res0 == 0) = true := by decide +kernel
/-- V-GEN-03, the word n − 1 -/
theorem test_genpriv : nextIs (step (waiting .genpriv 0x06 [.deliver (BitVec.ofNat 256 (dpN - 1))])) (fun t =>
    t.res0.toNat == dpN - 1 && t.status.word == 0x2) = true := by decide +kernel
/-- d = 3 of the table L1.6 -/
theorem test_derive : nextIs (step (running .derive (sn 3 0 0 offG .inf false) 0x07)) (fun t =>
    State.point t == threeG && t.res0 == 0) = true := by decide +kernel
/-- V-DER-05 -/
theorem test_derive_n : nextIs (step (running .derive (sn dpN 0 0 .inf .inf false) 0x07)) (fun t =>
    t.status.word == 0x306) = true := by decide +kernel
/-- V-KEY-02, the word 2 -/
theorem test_keypair : nextIs (step (waiting .keypair 0x08 [.deliver 2])) (fun t =>
    t.res0 == 2 && State.point t == (0xC6047F9441ED7D6D3045406E95C07CD85C778E4B8CEF3CA7ABAC09B95C709EE5,
      0x1AE168FEA63DC339A3C58419466CEAEEF7F632653266D0E1236431A950CFE52A, false)) = true := by decide +kernel
/-- V-SIGN-05, the word 7: s = 0 -/
theorem test_sign_retry : nextIs (step (waiting (.sign (BitVec.ofNat 256 zS) (BitVec.ofNat 256 d0)) 0x09 [.deliver 7]))
    (fun t => t.status.word == 0x21 && t.res0 == 0 && t.res1 == 0) = true := by decide +kernel
/-- V-SIGN-05, the word 11 -/
theorem test_sign : nextIs (step (waiting (.sign (BitVec.ofNat 256 zS) (BitVec.ofNat 256 d0)) 0x09 [.deliver 11]))
    (fun t => t.res0 == 0x774AE7F858A9411E5EF4246B70C65AAC5649980BE5C17891BBEC17895DA008CB &&
      t.res1 == 0x7436D78ED4ABE08FDCECF5589EDC30FF4CC2C90198F9559844B9AF9DE2865ABD) = true := by decide +kernel
/-- V-VER-14 -/
theorem test_verify : nextIs (step (running .verify (sn 0 dpGx dpGx baseG .inf false) 0x0A)) (fun t =>
    t.status.word == 0x0A) = true := by decide +kernel
/-- As V-VER-11: a key off the curve is a false result, no error -/
theorem test_verify_off : nextIs (step (running .verify (sn 0 dpGx dpGx offG .inf false) 0x0A)) (fun t =>
    t.status.word == 0x02) = true := by decide +kernel

/-! ## The bus and the lifecycle -/

/-- V-CMD-04 -/
theorem test_cmd_illegal : nextIs (step (coming [wr 0x008 0x13])) (fun t =>
    t.status.word == 0x406 && t.cmdLast == 0x13 && t.seq == .idle) = true := by decide +kernel
/-- V-CMD-08, program 3 -/
theorem test_cmd_dropped : nextIs (step (waiting .genpriv 0x06 [cmd .padd])) (fun t =>
    t.status.word == 0x31 && t.cmdLast == 0x6) = true := by decide +kernel
/-- V-BUS-01, V-BUS-03 -/
theorem test_read : (State.reset.busRead 0x000 32, State.reset.busRead 0x220 32) =
    (.read .okay 0x45434453, .read .okay 0xD0364141) := by decide +kernel
/-- V-BUS-05, V-BUS-06 -/
theorem test_read_refused : (State.reset.busRead 0x002 32, State.reset.busRead 0x018 32) =
    (.read .slverr 0, .read .slverr 0) := by decide +kernel
/-- V-BUS-04, V-BUS-09 -/
theorem test_write_refused : State.reset.busWrite 0x100 32 5 = State.reset.respond (.write .slverr) ∧
    State.reset.busWrite 0x020 8 5 = State.reset.respond (.write .slverr) := by decide +kernel
/-- V-BUS-07 -/
theorem test_write_ctrl : (State.reset.busWrite 0x004 32 0xFFFFFFFF).readReg .ctrl = 0x00000001 := by decide +kernel
/-- Word 1 of OPA (program 2: the second word of d0 goes to 0x024) -/
theorem test_write_word : (State.reset.busWrite 0x024 32 0xDE920AC9).opa = 0xDE920AC900000000 := by decide +kernel
/-- The host notation: LD256 of d0 writes these words (program 2) -/
theorem test_ld256 : ld256 .opb (BitVec.ofNat 256 d0) =
    [wr 0x040 0x7361D9EE, wr 0x044 0xDE920AC9, wr 0x048 0xDEECC2CB, wr 0x04C 0xCD9DAC87,
     wr 0x050 0x6B48C6CB, wr 0x054 0x8BF0194C, wr 0x058 0xC863DC52, wr 0x05C 0xCEF12D16] := by decide +kernel

/-! ## Witnesses: states and operands that meet the hypotheses of the statements -/

theorem witness_ResetEventAbandonsTheCommand :
    ∃ (s s' : State), s.pending = .reset :: [.tick] ∧ s'.pending = .reset :: [.tick] ∧ s'.draws = s.draws ∧ s ≠ s' :=
  ⟨waiting .keypair 0x8 [.reset, .tick], running .padd (sn 1 2 3 baseG .inf false) 0x3 |> fun s =>
    { s with pending := [.reset, .tick] }, by decide, by decide, by decide, by decide⟩

theorem witness_ConstantsHaveTheirProperties :
    onCurve baseG = true ∧ baseG ≠ .inf ∧ 0 < dpN - 1 ∧ dpN - 1 < dpN ∧ onCurve (.fin dpGx dpGy) = true ∧
      dpP - 1 < dpP := by
  decide +kernel

theorem witness_DecodeEncodeAgree : decode 0x00000012 = .instr .expN ∧ decode 0x0000000A = .instr .verify := by decide

theorem legalBits_verify : LegalBits 0x0000000A := by unfold LegalBits; decide
theorem legalBits_expN : LegalBits 0x00000012 := by unfold LegalBits; decide
theorem not_legalBits_zero : ¬ LegalBits 0x00000000 := by unfold LegalBits; decide
theorem not_legalBits_msel : ¬ LegalBits 0x00000013 := by unfold LegalBits; decide

theorem witness_CmdWriteWhileIdleIsAccepted :
    ((coming [.write 0x008 32 0x0A]).pending = .write 0x008 32 0x0A :: [] ∧ (coming [cmd .verify]).status.busy = false ∧
      LegalBits 0x0000000A) ∧
    ((coming [.write 0x008 32 0x13]).pending = .write 0x008 32 0x13 :: [] ∧ (coming [wr 0x008 0x13]).status.busy = false ∧
      ¬ LegalBits 0x00000013) :=
  ⟨⟨rfl, rfl, legalBits_verify⟩, ⟨rfl, rfl, not_legalBits_msel⟩⟩

theorem witness_IllegalWordsBehaveIdentically :
    ¬ LegalBits 0x00000000 ∧ ¬ LegalBits 0x00000013 ∧
    (coming [.write 0x008 32 0]).pending = .write 0x008 32 0 :: [] ∧ (coming [.write 0x008 32 0]).status.busy = false ∧
    (waiting .genpriv 0x6 [.write 0x008 32 0]).pending = .write 0x008 32 0 :: [] ∧
    (waiting .genpriv 0x6 [.write 0x008 32 0]).status.busy = true :=
  ⟨not_legalBits_zero, not_legalBits_msel, rfl, rfl, rfl, rfl⟩

theorem witness_CmdWriteWhileBusyIsDropped :
    (waiting (.sign 1 2) 0x9 [.write 0x008 32 0x3]).pending = .write 0x008 32 0x3 :: [] ∧
    (waiting (.sign 1 2) 0x9 [.write 0x008 32 0x3]).status.busy = true := ⟨rfl, rfl⟩

/-- The waiting KEYPAIR of the witnesses, before a word. -/
def waitState (events : List Event) : State := waiting .keypair 0x8 events

theorem waitState_inv (events : List Event) : (waitState events).Inv :=
  { status :=
      { busyClear := fun _ => ⟨rfl, rfl, rfl, rfl⟩
        errcodeIff := ⟨fun h => absurd rfl h, fun h => by cases h⟩
        rngwaitBusy := fun _ => rfl
        busyIff := ⟨fun _ => by simp [waitState, waiting], fun _ => rfl⟩
        vokVerify := fun h => by cases h }
    seq :=
      { rngwaitIff := rfl
        runningWord := fun i h => by cases h; show decode 0x8 = _; decide
        signKey := fun z d h => by cases h
        errcodeRange := Nat.zero_le 4
        portEmpty := rfl } }

/-- Two running INV.N with one snapshot and nothing else alike. -/
def invNA : State := running .inv (sn 3 0 0 .inf .inf true) 0x11
def invNB : State := { invNA with opa := 7, res0 := 9, ie := true, cmdLast := 0x9 }

theorem witness_StepRunsTheDecodedCommand :
    (invNA.current = some .invN ∧ invNA.pending = []) ∧
    ({ invNA with pending := [.tick] } : State).current = some .invN ∧
    ((waitState [.deliver 5]).current = some .keypair ∧ (waitState [.deliver 5]).rngReq = true ∧
      (waitState [.deliver 5]).pending = .deliver 5 :: []) ∧
    (decode 0x11 = .instr .invN ∧ (coming [.write 0x008 32 0x11]).status.busy = false ∧
      (coming [.write 0x008 32 0x11]).pending = [.write 0x008 32 0x11]) ∧
    State.reset.pending = [] := by decide +kernel

theorem witness_OnlyAnAcceptChangesCmdLast :
    (∃ t, step (coming [.write 0x008 32 0xFFFFFFFF]) = .next t ∧ (t.cmdLast != State.reset.cmdLast) = true) ∧
    (∃ t, step { State.reset with cmdLast := 9, pending := [.reset] } = .next t ∧ (t.cmdLast != 9) = true) :=
  ⟨nextIs_spec (by decide +kernel), nextIs_spec (by decide +kernel)⟩

/-- A begin step that commits, one that fails and one that waits. -/
theorem witness_BeginStepReadsSnapOnly :
    (invNA.snap = invNB.snap ∧ invNA.seq = .run Instr.invN.op ∧ invNB.seq = .run Instr.invN.op ∧ invNA ≠ invNB ∧
      invNA.status.err = false ∧ invNB.status.err = false) ∧
    (∃ t, exec .invN invNA = .next t ∧ (t.seq == .idle && !t.status.err) = true) ∧
    (∃ t, exec .invN invNB = .next t ∧ (t.seq == .idle && !t.status.err) = true) ∧
    (∃ t, exec .derive (running .derive (sn 0 0 0 .inf .inf false) 0x7) = .next t ∧
      (t.seq == .idle && t.status.err) = true) ∧
    (∃ t, exec .sign (running .sign (sn 5 1 0 .inf .inf false) 0x9) = .next t ∧ (t.seq == .waitRng (.sign 5 1)) = true) ∧
    (∃ t, exec .pdbl (running .pdbl (sn 0 0 0 baseG .inf false) 0x4) = .next t ∧ (t.seq == .idle && !t.status.err) = true) ∧
    (∃ t, exec .verify (running .verify (sn 0 0 0 baseG .inf false) 0xA) = .next t ∧
      (t.seq == .idle && !t.status.err) = true) :=
  ⟨by decide +kernel, nextIs_spec (by decide +kernel), nextIs_spec (by decide +kernel), nextIs_spec (by decide +kernel),
    nextIs_spec (by decide +kernel), nextIs_spec (by decide +kernel), nextIs_spec (by decide +kernel)⟩

theorem witness_InputWritesDoNotDisturbARunningCommand :
    IsInputWrite 0x004 ∧ IsInputWrite 0x010 ∧ IsInputWrite 0x020 ∧ IsInputWrite 0x0FF ∧ invNA.current = some .invN := by
  unfold IsInputWrite; decide +kernel

/-- Every clause has a command it speaks of. -/
theorem witness_CommandsWriteOnlyTheirOutRegs :
    (∃ t, exec .padd (running .padd (sn 0 0 0 baseG twoG false) 0x3) = .next t ∧ true = true) ∧
    .res0 ∉ Instr.padd.outRegs ∧ .res1 ∉ Instr.padd.outRegs ∧ .rx ∉ Instr.sign.outRegs ∧ .ry ∉ Instr.sign.outRegs ∧
    .rinf ∉ Instr.sign.outRegs ∧ Instr.padd ≠ .verify :=
  ⟨nextIs_spec rfl, by decide +kernel⟩

theorem witness_EveryStepKeepsTheInvariant :
    (waitState [.deliver 2]).Inv ∧ ∃ t, step (waitState [.deliver 2]) = .next t ∧ (t.res0 == 2) = true :=
  ⟨waitState_inv _, nextIs_spec (by decide +kernel)⟩

/-! ### Reachable states, one for each clause -/

/-- The state after k steps, where they all answer next. -/
def after : Nat → State → State
  | 0, s => s
  | k + 1, s =>
    match step s with
    | .next t => after k t
    | .fault _ => s
    | .refused _ => s

theorem reachable_after (k : Nat) {s : State} (h : Reachable s) : Reachable (after k s) := by
  induction k generalizing s with
  | zero => exact h
  | succ k ih =>
    unfold after
    split
    · next t ht => exact ih (.step s t h ht)
    · exact h
    · exact h

/-- The point (1, y₁) of V-PADD-14 is on the curve, so it verifies z = 0 with r = s = 1 (u1 = 0, u2 = 1, xW = 1). -/
def verifyOne : List Event :=
  [wr 0x040 1, wr 0x060 1, wr 0x080 1] ++
    ld256 .p1y 0x4218F20AE6C646B363DB68605822FB14264CA8D2587FDD6FBC750D587E76A7EE ++ [cmd .verify, .tick]

theorem witness_StatusInvariantsHoldInReachableStates :
    (Reachable (after 1 (coming [cmd .keypair])) ∧ (after 1 (coming [cmd .keypair])).status.busy = true) ∧
    (Reachable (after 2 (coming [cmd .keypair])) ∧ (after 2 (coming [cmd .keypair])).status.rngwait = true) ∧
    (Reachable (after 1 (coming [wr 0x008 0x13])) ∧ (after 1 (coming [wr 0x008 0x13])).status.errcode ≠ 0) ∧
    (Reachable (after 13 (coming verifyOne)) ∧ (after 13 (coming verifyOne)).status.vok = true) :=
  ⟨⟨reachable_after _ (.start _ _), by decide +kernel⟩, ⟨reachable_after _ (.start _ _), by decide +kernel⟩,
    ⟨reachable_after _ (.start _ _), by decide +kernel⟩, ⟨reachable_after _ (.start _ _), by decide +kernel⟩⟩

/-! ### Errors and the interrupt -/

theorem witness_OnlyTheListedErrorsAreRaised :
    (running .derive (sn 0 0 0 .inf .inf false) 0x7).status.err = false ∧
    ∃ t, exec .derive (running .derive (sn 0 0 0 .inf .inf false) 0x7) = .next t ∧ t.status.err = true :=
  ⟨rfl, nextIs_spec (by decide +kernel)⟩

theorem witness_InterruptLevelFollowsDone :
    (invNA.current = some .invN ∧ ∃ t, exec .invN invNA = .next t ∧ (t.seq == .idle) = true) ∧
    (¬ LegalBits 0x13 ∧ (coming [.write 0x008 32 0x13]).status.busy = false) ∧
    ((0x00000016 : Word32).getLsbD 1 = true ∧ (coming [.write 0x00C 32 0x16]).pending = .write 0x00C 32 0x16 :: []) ∧
    (LegalBits 0x0A ∧ (coming [.write 0x008 32 0x0A]).status.busy = false) ∧
    ((0xFFFFFFFE : Word32).getLsbD 0 = false ∧
      (coming [.write 0x004 32 0xFFFFFFFE]).pending = .write 0x004 32 0xFFFFFFFE :: []) ∧
    (coming [.reset]).pending = .reset :: [] :=
  ⟨⟨by decide +kernel, nextIs_spec (by decide +kernel)⟩, ⟨not_legalBits_msel, rfl⟩, ⟨by decide +kernel, rfl⟩,
    ⟨legalBits_verify, rfl⟩, ⟨by decide +kernel, rfl⟩, rfl⟩

/-! ### The register window -/

/-- Every aligned offset falls under exactly one clause of BusReadReturnsTheRegister; a misaligned one only under the
clause of refused reads, since every other clause names aligned offsets. -/
def clausesOf (n : Nat) : Nat :=
  (if n ≤ 0x14 then 1 else 0) +
  ((inputMap ++ readOnlyMap).filter (fun r => Nat.ble r.1 n && Nat.blt n (r.1 + 32))).length +
  (if (0x018 ≤ n ∧ n ≤ 0x01F) ∨ (0x180 ≤ n ∧ n ≤ 0x1FF) ∨ 0x2E0 ≤ n then 1 else 0)

theorem test_read_clauses_disjoint : ∀ hi < 32, ∀ lo < 32, clausesOf (128 * hi + 4 * lo) = 1 := by decide +kernel

/-- An offset at each end of every clause's range. -/
theorem witness_BusReadReturnsTheRegister :
    (coming [.read 0x2DC 32]).pending = .read 0x2DC 32 :: [] ∧
    ((0x020, WideReg.opa) ∈ inputMap ++ readOnlyMap ∧ (0x020 : Offset).toNat = 0x020 + 4 * 0) ∧
    ((0x2C0, WideReg.dpH) ∈ inputMap ++ readOnlyMap ∧ (0x2DC : Offset).toNat = 0x2C0 + 4 * 7) ∧
    (ReservedOffset 0x018 ∧ ReservedOffset 0x01F ∧ ReservedOffset 0x180 ∧ ReservedOffset 0x1FF ∧ ReservedOffset 0x2E0 ∧
      ReservedOffset 0xFFC) ∧
    (0xFFF : Offset).toNat % 4 ≠ 0 := by
  unfold ReservedOffset; decide +kernel

theorem witness_BusWriteWritesTheRegister :
    (coming [.write 0x0FC 32 5]).pending = .write 0x0FC 32 5 :: [] ∧
    ((0x020, WideReg.opa) ∈ inputMap ∧ (0x020 : Offset).toNat = 0x020 + 4 * 0) ∧
    ((0x0E0, WideReg.p2y) ∈ inputMap ∧ (0x0FC : Offset).toNat = 0x0E0 + 4 * 7) := by decide +kernel

theorem witness_RefusedAccessesChangeNothing :
    (coming [.read 0x002 8]).pending = .read 0x002 8 :: [] ∧ (coming [.write 0x100 32 0]).pending = .write 0x100 32 0 :: [] ∧
    RegSel.pflags ∈ [RegSel.ctrl, .status, .pflags, .rflags] := by decide +kernel

theorem witness_ReadOnlyOffset : ReadOnlyOffset 0x000 ∧ ReadOnlyOffset 0x014 ∧ ReadOnlyOffset 0x100 ∧
    ReadOnlyOffset 0x17F ∧ ReadOnlyOffset 0x200 ∧ ReadOnlyOffset 0x2DF := by unfold ReadOnlyOffset; decide +kernel

theorem test_writable_offsets : ¬ ReadOnlyOffset 0x004 ∧ ¬ ReadOnlyOffset 0x010 ∧ ¬ ReadOnlyOffset 0x0FF := by
  unfold ReadOnlyOffset; decide +kernel

theorem witness_WideRegisterIsTheSumOfItsWords :
    (0x020, WideReg.opa) ∈ inputMap ++ readOnlyMap ∧ (0x2C0, WideReg.dpH) ∈ inputMap ++ readOnlyMap := by decide +kernel

theorem witness_WordWriteChangesOnlyThatWord : (7 : Nat) < 8 ∧ (0 : Nat) < 8 := by decide +kernel

theorem witness_Ld256LoadsTheRegister : (0x020, WideReg.opa) ∈ inputMap ∧ (0x0E0, WideReg.p2y) ∈ inputMap := by decide +kernel

/-! ### Field and point commands -/

/-- Both moduli, at values on both sides of the condition. -/
theorem witness_InvCommitsTheUniqueInverse :
    (running .inv (sn (dpP - 1) 0 0 .inf .inf false) 0x1).snap.opa.toNat % dpP ≠ 0 ∧
    (running .inv (sn (dpN + 1) 0 0 .inf .inf true) 0x11).snap.opa.toNat % dpN ≠ 0 := by decide +kernel

theorem witness_InvOfZeroFailsWithCodeTwo :
    (running .inv (sn dpP 0 0 .inf .inf false) 0x1).snap.opa.toNat % dpP = 0 ∧
    (running .inv (sn 0 0 0 .inf .inf true) 0x11).snap.opa.toNat % dpN = 0 := by decide +kernel

theorem witness_IdentityMuxSelects : baseG ≠ .inf ∧ twoG ≠ .inf := by decide +kernel

/-- Checked points for the two branches that have one; an unchecked pair. No checked point has y = 0
(spec/41_point_ops.md R125), so the clause of step 3 cannot be met. -/
theorem witness_AddPointsFollowsTheGroupLaw :
    (onCurve baseG = true ∧ onCurve negG = true ∧ onCurve twoG = true ∧ onCurve offG = false) ∧
    (dpGy + 0xB7C52588D95C3B9AA25B0403F1EEF75702E84BB7597AABE663B82F6F04EF2777) % dpP = 0 ∧
    ¬(dpGx = dpGx ∧ (dpGy + dpGy) % dpP = 0) ∧
    dpGx ≠ 0xC6047F9441ED7D6D3045406E95C07CD85C778E4B8CEF3CA7ABAC09B95C709EE5 := by decide +kernel

theorem witness_AddPointsPropertiesOnTheCurve :
    (onCurve (.fin dpGx dpGy) = true ∧
      onCurve (.fin dpGx 0xB7C52588D95C3B9AA25B0403F1EEF75702E84BB7597AABE663B82F6F04EF2777) = true ∧ onCurve twoG = true) ∧
    (match addPoints .inf offG with | .ok _ => false | .error c => c == .pointNotOnCurve) = true := by decide +kernel

theorem witness_NegationIsTheInversePoint :
    onCurve baseG = true ∧ (match addPoints baseG negG with | .ok R => R == .inf | .error _ => false) = true := by
  decide +kernel

theorem witness_PointCommandsCommitTheSum :
    onCurve (running .padd (sn 0 0 0 baseG .inf false) 0x3).snap.p1 = true ∧
    onCurve (running .padd (sn 0 0 0 baseG .inf false) 0x3).snap.p2 = true := by decide +kernel

theorem witness_OffCurvePointsFailWithCodeOne :
    ¬(onCurve (running .padd (sn 0 0 0 .inf offG false) 0x3).snap.p1 = true ∧
      onCurve (running .padd (sn 0 0 0 .inf offG false) 0x3).snap.p2 = true) ∧
    onCurve (running .smul (sn 0 0 0 offG .inf false) 0x5).snap.p1 = false := by decide +kernel

theorem witness_SmulCommitsTheRepeatedSum :
    onCurve (running .smul (sn (2 ^ 256 - 1) 0 0 baseG .inf false) 0x5).snap.p1 = true := by decide +kernel

theorem witness_MulProperties :
    onCurve twoG = true ∧ twoG ≠ .inf ∧ 1 ≤ dpN - 1 ∧
    (match mulPoint 2 baseG with | .ok R => R == twoG | .error _ => false) = true := by decide +kernel

/-! ### Keys, signing, verifying -/

theorem witness_GenprivCommitsTheAcceptedWord :
    ({ waiting .genpriv 0x6 [] with rngIn := some 1 } : State).seq = .waitRng .genpriv ∧
    (1 ≤ (1 : Word256).toNat ∧ (1 : Word256).toNat ≤ dpN - 1) ∧
    (1 ≤ (BitVec.ofNat 256 (dpN - 1)).toNat ∧ (BitVec.ofNat 256 (dpN - 1)).toNat ≤ dpN - 1) ∧
    ¬(1 ≤ (BitVec.ofNat 256 dpN).toNat ∧ (BitVec.ofNat 256 dpN).toNat ≤ dpN - 1) ∧
    ¬(1 ≤ (0 : Word256).toNat ∧ (0 : Word256).toNat ≤ dpN - 1) := by decide +kernel

theorem witness_DeriveCommitsThePublicKey :
    (1 ≤ (sn (dpN - 1) 0 0 .inf .inf false).opa.toNat ∧ (sn (dpN - 1) 0 0 .inf .inf false).opa.toNat ≤ dpN - 1) ∧
    ¬(1 ≤ (sn dpN 0 0 .inf .inf false).opa.toNat ∧ (sn dpN 0 0 .inf .inf false).opa.toNat ≤ dpN - 1) := by decide +kernel

theorem witness_KeypairCommitsAMatchingPair :
    ({ waitState [] with rngIn := some 2 } : State).seq = .waitRng .keypair ∧
    ({ waitState [] with rngIn := some 2 } : State).rngIn = some 2 ∧
    (1 ≤ (2 : Word256).toNat ∧ (2 : Word256).toNat ≤ dpN - 1) := by decide +kernel

theorem witness_RandomCommandsBeginByWaiting :
    (running .genpriv (sn 0 0 0 .inf .inf false) 0x6).seq = .run .genpriv ∧
    (running .keypair (sn 0 0 0 .inf .inf false) 0x8).seq = .run .keypair ∧
    ((running .sign (sn 0 (dpN - 1) 0 .inf .inf false) 0x9).seq = .run .sign ∧
      1 ≤ (sn 0 (dpN - 1) 0 .inf .inf false).opb.toNat ∧ (sn 0 (dpN - 1) 0 .inf .inf false).opb.toNat ≤ dpN - 1) ∧
    ¬(1 ≤ (sn 0 dpN 0 .inf .inf false).opb.toNat ∧ (sn 0 dpN 0 .inf .inf false).opb.toNat ≤ dpN - 1) := by decide +kernel

/-- The attempt of V-SIGN-02, which commits. test_sign_retry has an attempt with s = 0; no nonce with r = 0 is known
(spec/95_test_vectors.md). -/
def signOne : State := { waiting (.sign 0 1) 0x9 [] with rngIn := some 1 }

theorem witness_SignAttemptCommitsTheSignature :
    signOne.seq = .waitRng (.sign 0 1) ∧ signOne.rngIn = some 1 ∧ 1 ≤ (1 : Word256).toNat ∧ (1 : Word256).toNat ≤ dpN - 1 ∧
    dpGx % dpN ≠ 0 ∧ 1 * ((0 + dpGx % dpN * 1) % dpN) % dpN ≠ 0 ∧
    (match mulPoint 1 baseG with | .ok R => R == baseG | .error _ => false) = true := by decide +kernel

theorem witness_CommittedSignaturesAreInRange :
    signOne.seq = .waitRng (.sign 0 1) ∧ ∃ t, exec .sign signOne = .next t ∧ (t.seq == .idle) = true :=
  ⟨rfl, nextIs_spec (by decide +kernel)⟩

theorem witness_FailedAttemptsLeaveNoTrace :
    (waitState []).rngReq = true ∧ (waitState []).current = some .keypair ∧
    (∃ t, exec .keypair { waitState [] with rngIn := some 0 } = .next t ∧ t.rngReq = true) ∧
    (∃ t, exec .keypair { waitState [] with rngIn := some (BitVec.ofNat 256 dpN) } = .next t ∧ t.rngReq = true) :=
  ⟨rfl, rfl, nextIs_spec (by decide +kernel), nextIs_spec (by decide +kernel)⟩

/-- The signature of V-SIGN-02, and a key that is the identity. -/
def verifyState : State := running .verify (sn 0 dpGx dpGx baseG .inf false) 0xA

theorem witness_VerifyCommitsTheVerdict :
    (running .verify (sn 0 1 1 .inf .inf false) 0xA).snap.p1 = .inf ∧
    (verifyState.snap.p1 ≠ .inf ∧ onCurve verifyState.snap.p1 = true ∧ 1 ≤ verifyState.snap.opb.toNat ∧
      verifyState.snap.opb.toNat ≤ dpN - 1 ∧ 1 ≤ verifyState.snap.opc.toNat ∧ verifyState.snap.opc.toNat ≤ dpN - 1) := by
  decide +kernel

theorem witness_SignVerifyRoundTrip :
    ∃ t, exec .sign signOne = .next t ∧ (t.seq == .idle && t.res0 == verifyState.snap.opb &&
      t.res1 == verifyState.snap.opc && verifyState.snap.opa == 0 && verifyState.snap.p1 == baseG &&
      (match mulPoint 1 baseG with | .ok R => R == baseG | .error _ => false)) = true :=
  nextIs_spec (by decide +kernel)

theorem witness_NegatedSignatureVerifiesToo :
    (∃ t, exec .verify verifyState = .next t ∧ t.status.vok = true) ∧
    (running .verify (sn 0 dpGx (dpN - dpGx) baseG .inf false) 0xA).snap =
      { verifyState.snap with opc := BitVec.ofNat 256 (dpN - verifyState.snap.opc.toNat) } :=
  ⟨nextIs_spec (by decide +kernel), by decide +kernel⟩

/-! ### The port and the platform -/

theorem witness_DeliveredWordsAreConsumedOnce :
    ((coming [.deliver 5]).pending = .deliver 5 :: [] ∧ (coming [.deliver 5]).rngReq = false) ∧
    ((waitState [.deliver 5]).pending = .deliver 5 :: [] ∧ (waitState [.deliver 5]).rngReq = true ∧
      ∃ t, step (waitState [.deliver 5]) = .next t ∧ (t.res0 == 5) = true) :=
  ⟨⟨rfl, rfl⟩, rfl, rfl, nextIs_spec (by decide +kernel)⟩

/-- A wait that a reset ends and one that a word ends. -/
theorem witness_WaitingLastsUntilAWordOrReset :
    ((waitState [.reset]).Inv ∧ (waitState [.reset]).rngReq = true ∧
      ∃ t, step (waitState [.reset]) = .next t ∧ (!t.status.busy) = true) ∧
    ((waitState [.deliver 2]).Inv ∧ (waitState [.deliver 2]).rngReq = true ∧
      ∃ t, step (waitState [.deliver 2]) = .next t ∧ (t.seq != (waitState [.deliver 2]).seq) = true) :=
  ⟨⟨waitState_inv _, rfl, nextIs_spec (by decide +kernel)⟩, ⟨waitState_inv _, rfl, nextIs_spec (by decide +kernel)⟩⟩

theorem witness_NothingPendingNothingMoves :
    (waitState []).Inv ∧ (waitState []).pending = [] ∧ (waitState []).rngReq = true := ⟨waitState_inv _, rfl, rfl⟩

/-- Two instances, and a host address on each side of a window. -/
theorem witness_InstancesAreIndependent :
    (0 : Nat) ≠ 1 ∧
    ((⟨4096, State.reset⟩ : Placed).base = 4096 ∧ 4095 < (⟨4096, State.reset⟩ : Placed).base ∧
      (⟨4096, State.reset⟩ : Placed).base + 4096 ≤ 8192) ∧
    (Placed.hostRead 4096 32 ⟨4096, State.reset⟩ ≠ ⟨4096, State.reset⟩ ∧
      Placed.hostRead 8191 32 ⟨4096, State.reset⟩ ≠ ⟨4096, State.reset⟩) := by decide +kernel

end Sys2Proof.Tests
end

/-! # Proofs: the state and the command lifecycle (spec/10_state.md) -/

namespace Sys2Proof.Machine

/-! ### The decoder, read backwards (spec/30_encoding.md R80, R84, R85) -/

/-- A word is the word of its fields (R80). -/
theorem word_fieldsOf (v : Word32) : (fieldsOf v).word = v := by
  refine BitVec.eq_of_getLsbD_eq fun b hb => ?_
  simp only [CmdFields.word, fieldsOf, BitVec.getLsbD_append, BitVec.getLsbD_extractLsb', BitVec.getLsbD_ofBool]
  rcases lt_trichotomy b 4 with h | rfl | h
  · simp [h]
  · simp
  · have h5 : ¬ b - 4 < 1 := by omega
    have hb' : 5 + (b - 4 - 1) = b := by omega
    simp [h.not_gt, h5, hb']
    omega

/-- The opcode map answers a command on exactly its OPC and MSEL (R84). -/
theorem opcodeMap_fields {opc : Nat} {msel : Bool} {i : Instr} (h : opcodeMap opc msel = .instr i) :
    i.fields.opc.toNat = opc ∧ i.fields.msel = msel := by
  unfold opcodeMap at h
  split at h
  case h_13 => split at h <;> cases h
  all_goals cases h; exact ⟨rfl, rfl⟩

/-- The opcode map answers a command on the assigned opcodes with an allowed MSEL (R85). -/
theorem opcodeMap_instr_iff (opc : Nat) (msel : Bool) : (∃ i, opcodeMap opc msel = .instr i) ↔
    1 ≤ opc ∧ opc ≤ 0xA ∧ (msel = false ∨ opc = 0x1 ∨ opc = 0x2) := by
  constructor
  · rintro ⟨i, h⟩
    obtain ⟨rfl, rfl⟩ := opcodeMap_fields h
    cases i <;> decide
  · rintro ⟨h1, h10, hm⟩
    rcases hm with rfl | rfl | rfl
    · interval_cases opc <;> exact ⟨_, rfl⟩
    · cases msel <;> exact ⟨_, rfl⟩
    · cases msel <;> exact ⟨_, rfl⟩

/-- A word decodes to a command only with reserved bits zero, and then as the opcode map says (R86). -/
theorem decode_eq_instr {v : Word32} {i : Instr} : decode v = .instr i ↔
    v.extractLsb' 5 27 = 0 ∧ opcodeMap (v.extractLsb' 0 4).toNat (v.getLsbD 4) = .instr i := by
  unfold decode
  split <;> simp_all [CmdFields.rsvZero, fieldsOf]

/-- The decoder accepts the legal words (R85). -/
theorem decode_instr_iff_legalBits (v : Word32) : (∃ i, decode v = .instr i) ↔ LegalBits v := by
  simp only [decode_eq_instr, exists_and_left, opcodeMap_instr_iff, LegalBits]

/-- The fields of a word that decodes are its command's. -/
theorem fieldsOf_of_decode {v : Word32} {i : Instr} (h : decode v = .instr i) : fieldsOf v = i.fields := by
  obtain ⟨hrsv, hmap⟩ := decode_eq_instr.1 h
  obtain ⟨hopc, hmsel⟩ := opcodeMap_fields hmap
  have hi : i.fields.rsv = 0 := by cases i <;> rfl
  simp only [fieldsOf, hrsv, ← hmsel, ← BitVec.eq_of_toNat_eq hopc]
  rw [← hi]

/-- A word that decodes to a command is the command's word (R84). -/
theorem encode_of_decode {v : Word32} {i : Instr} (h : decode v = .instr i) : encode i = v := by
  rw [encode, ← fieldsOf_of_decode h, word_fieldsOf]

/-- The operation and the MSEL bit of a word name its command again (spec/40_field_arithmetic.md R101). -/
theorem ofOp_of_decode {v : Word32} {i : Instr} (h : decode v = .instr i) : Instr.ofOp i.op (v.getLsbD 4) = i := by
  have hmsel : v.getLsbD 4 = i.fields.msel := congrArg CmdFields.msel (fieldsOf_of_decode h)
  rw [hmsel]
  cases i <;> rfl

/-! ### Reset and constants -/

/-- The ROM is no state: every state reads the same constants (spec/10_state.md R27, R35). -/
theorem wide_rom (s t : State) {r : WideReg} (h : r ∈ [WideReg.dpP, .dpN, .dpGx, .dpGy, .dpA, .dpB, .dpH]) :
    s.wide r = t.wide r := by
  fin_cases h <;> rfl

/-- Settles O1: the register values are those `State.reset` is defined with, and the ROM reads no state. -/
theorem resetStateValues : Obligations.ResetStateValues := by
  refine ⟨⟨rfl, rfl, rfl, rfl, rfl, rfl, rfl⟩, ⟨rfl, rfl⟩, ⟨rfl, rfl, rfl, rfl, rfl⟩, rfl, rfl, rfl, rfl, rfl,
    fun s => ⟨rfl, fun r hr i => ?_⟩⟩
  rw [State.readReg, State.readReg, wide_rom s.resetEvent s hr]

section
variable [Fact (Nat.Prime dpP)]

/-- Mul answers INF where the group's multiple is the identity (spec/42_scalar_multiplier.md R141). -/
theorem mulPoint_eq_inf_iff {Q : Point} (hQ : onCurve Q = true) (k : Nat) :
    mulPoint k Q = .ok .inf ↔ k • Q.toGroup = 0 := by
  obtain ⟨T, hT, hTc, hTg⟩ := mulPoint_toGroup k hQ
  rw [hT, ← hTg, toGroup_eq_zero hTc, Except.ok.injEq]

/-- Mul depends on the group's multiple only. -/
theorem mulPoint_congr {Q : Point} (hQ : onCurve Q = true) {k j : Nat} (h : k • Q.toGroup = j • Q.toGroup) :
    mulPoint k Q = mulPoint j Q := by
  obtain ⟨T, hT, hTc, hTg⟩ := mulPoint_toGroup k hQ
  obtain ⟨U, hU, hUc, hUg⟩ := mulPoint_toGroup j hQ
  rw [hT, hU, toGroup_injective hTc hUc (by rw [hTg, hUg, h])]

/-- Every finite point of the curve has order exactly n (spec/10_state.md R40). -/
theorem finite_point_hasOrderN {Q : Point} (hQ : onCurve Q = true) (hfin : Q ≠ .inf) : hasOrderN Q := by
  refine ⟨(mulPoint_eq_inf_iff hQ _).2 (order_nsmul _), fun k hpos hlt hinf => ?_⟩
  have hdvd : dpN ∣ k := (nsmul_eq_zero_iff (mt (toGroup_eq_zero hQ).1 hfin) k).1 ((mulPoint_eq_inf_iff hQ k).1 hinf)
  exact absurd (Nat.le_of_dvd hpos hdvd) hlt.not_ge

/-- Multiples on the curve reduce mod n (spec/10_state.md R40). -/
theorem multiples_reduce_mod_n {Q : Point} (hQ : onCurve Q = true) : multiplesReduceModN Q :=
  fun k => mulPoint_congr hQ (nsmul_mod k _).symm

end

/-- Settles O4: Mul is the multiple of Mathlib's group of the curve, which has the prime order n. -/
theorem constantsHaveTheirProperties : Obligations.ConstantsHaveTheirProperties := by
  have hf : Fact (Nat.Prime dpP) := ⟨dpP_prime⟩
  refine ⟨constants_are_prime, values_fit_registers, ⟨onCurve_baseG, ?_⟩, group_has_order_n,
    fun Q hQ hfin => ⟨finite_point_hasOrderN hQ hfin, multiples_reduce_mod_n hQ⟩, no_point_has_y_zero⟩
  exact (mulPoint_eq_inf_iff onCurve_baseG _).2 (order_nsmul _)

/-! ### The accept and the drop of a CMD write -/

/-- A CMD write to an idle block is the accept of its word (spec/10_state.md R42). -/
theorem step_cmd_idle {s : State} {v : Word32} {rest : List Event} (hp : s.pending = .write 0x008 32 v :: rest)
    (hidle : s.status.busy = false) :
    step s = .next ((({ s with pending := rest } : State).accept v).respond (.write .okay)) := by
  rw [step_cmd hp, cmdWrite_idle (s := { s with pending := rest }) v hidle]

/-- A CMD write to a busy block is the drop (spec/10_state.md R43). -/
theorem step_cmd_busy {s : State} {v : Word32} {rest : List Event} (hp : s.pending = .write 0x008 32 v :: rest)
    (hbusy : s.status.busy = true) :
    step s = .next ((({ s with pending := rest } : State).drop).respond (.write .okay)) := by
  rw [step_cmd hp, cmdWrite_busy (s := { s with pending := rest }) v hbusy]

/-- Settles O8: the two branches of the accept, by whether the word decodes, which is `LegalBits`. -/
theorem cmdWriteWhileIdleIsAccepted : Obligations.CmdWriteWhileIdleIsAccepted := by
  intro s v rest hp hidle
  refine ⟨_, step_cmd_idle hp hidle, fun hill => ?_, fun hleg => ?_⟩
  · cases hd : decode v with
    | instr i => exact absurd ((decode_instr_iff_legalBits v).1 ⟨i, hd⟩) hill
    | illegal why => rw [accept_illegal hd]; rfl
  · obtain ⟨i, hd⟩ := (decode_instr_iff_legalBits v).2 hleg
    exact ⟨i, hd, by rw [accept_legal hd]; rfl⟩

/-- Settles O10: the drop is this update of the state. -/
theorem cmdWriteWhileBusyIsDropped : Obligations.CmdWriteWhileBusyIsDropped := by
  intro s v rest hp hbusy
  exact step_cmd_busy hp hbusy

/-! ### The invariant, idle and running (spec/10_state.md R31) -/

/-- The invariant reads only STATUS, SEQ, SNAP, CMD_LAST and the port. -/
theorem State.Inv.congr {s t : State} (hs : s.Inv) (hstatus : t.status = s.status) (hseq : t.seq = s.seq)
    (hsnap : t.snap = s.snap) (hcmd : t.cmdLast = s.cmdLast) (hport : t.rngIn = s.rngIn) : t.Inv := by
  obtain ⟨⟨hbusy, herr, hwait, hbusyIff, hvok⟩, ⟨hreq, hword, hkey, hrange, hempty⟩⟩ := hs
  have hcur : t.current = s.current := by simp only [State.current, hseq, hsnap]
  have hrng : t.rngReq = s.rngReq := by simp only [State.rngReq, hseq]
  constructor <;> constructor <;> simp only [hstatus, hseq, hcmd, hport, hcur, hrng] <;> assumption

/-- What the invariant says while SEQ is IDLE. -/
theorem inv_idle_iff {s : State} (h : s.seq = .idle) : s.Inv ↔
    s.status.busy = false ∧ s.status.rngwait = false ∧ (s.status.errcode ≠ 0 ↔ s.status.err = true) ∧
      (s.status.vok = true → s.status.err = false ∧ s.cmdLast = 0x0000000A) ∧
      s.status.errcode.toNat ≤ 4 ∧ s.rngIn = none := by
  have hreq : s.rngReq = false := by simp [State.rngReq, h]
  constructor
  · rintro ⟨⟨-, herr, -, hbusyIff, hvok⟩, ⟨hwait, -, -, hrange, hport⟩⟩
    exact ⟨by simpa [h] using hbusyIff, hwait.trans hreq, herr, hvok, hrange, hport⟩
  · rintro ⟨hbusy, hwait, herr, hvok, hrange, hport⟩
    exact ⟨⟨by simp [hbusy], herr, by simp [hwait], by simp [hbusy, h], hvok⟩,
      ⟨hwait.trans hreq.symm, by simp [current_idle h], by simp [h], hrange, hport⟩⟩

/-- What the invariant says while a command runs. -/
theorem inv_running_iff {s : State} {i : Instr} (h : s.current = some i) : s.Inv ↔
    s.status.busy = true ∧ s.status.done = false ∧ s.status.err = false ∧ s.status.errcode = 0 ∧
      s.status.vok = false ∧ s.status.rngwait = s.rngReq ∧ decode s.cmdLast = .instr i ∧
      (∀ z d, s.seq = .waitRng (.sign z d) → scalarInRange d.toNat = true) ∧ s.rngIn = none := by
  have hseq : s.seq ≠ .idle := fun hidle => by simp [current_idle hidle] at h
  constructor
  · rintro ⟨⟨hclear, -, -, hbusyIff, -⟩, ⟨hwait, hword, hkey, -, hport⟩⟩
    have hbusy := hbusyIff.2 hseq
    obtain ⟨hdone, herr, hcode, hvok⟩ := hclear hbusy
    exact ⟨hbusy, hdone, herr, hcode, hvok, hwait, hword i h, hkey, hport⟩
  · rintro ⟨hbusy, hdone, herr, hcode, hvok, hwait, hword, hkey, hport⟩
    exact ⟨⟨fun _ => ⟨hdone, herr, hcode, hvok⟩, by simp [hcode, herr], fun _ => hbusy, by simp [hbusy, hseq],
      by simp [hvok]⟩, ⟨hwait, by simp [h, hword], hkey, by simp [hcode], hport⟩⟩

/-! ### Every step keeps the invariant -/

/-- The reset state meets the invariant, whatever the environment will do (spec/10_state.md R54). -/
theorem reset_inv (events : List Event) (k : Nat) : State.Inv { State.reset with pending := events, draws := k } := by
  have hreset : State.reset.Inv := (inv_idle_iff rfl).2 (by decide)
  exact hreset.congr rfl rfl rfl rfl rfl

/-- What a step of command `i` may evaluate to: VOK comes from VERIFY only (spec/30_encoding.md R82), and a wait is
the command's own, with a key in range (spec/44_ecdsa_signer.md R161). -/
def Result.Allowed (i : Instr) : Result → Prop
  | .ok o => o.vok ≠ none → i = .verify
  | .raise _ => True
  | .needRng w => w.instr = i ∧ ∀ z d, w = .sign z d → scalarInRange d.toNat = true

/-- Begin steps evaluate to what their command may. -/
theorem beginOf_allowed (i : Instr) (sn : Snapshot) : (beginOf i sn).Allowed i := by
  cases h : beginOf i sn with
  | ok o =>
    obtain ⟨-, -, -, -, -, hvok⟩ := beginOf_ok h
    exact hvok.1
  | raise c => trivial
  | needRng w => exact beginOf_needRng h

/-- Attempts do so too, and wait on with the context they have. -/
theorem attemptOf_allowed {w : Waiting} (x : Word256)
    (hkey : ∀ z d, w = .sign z d → scalarInRange d.toNat = true) : (attemptOf w x).Allowed w.instr := by
  rcases attemptOf_cases w x with h | ⟨o, h, hvok, -⟩ <;> rw [h]
  · exact ⟨rfl, hkey⟩
  · exact fun hne => absurd hvok hne

/-- Commit, fail and wait keep the invariant (spec/10_state.md R44 to R47). -/
theorem conclude_inv {s : State} {i : Instr} {r : Result} (hs : s.Inv) (hi : s.current = some i)
    (hr : r.Allowed i) : (s.conclude i r).Inv := by
  obtain ⟨hbusy, hdone, herr, hcode, hvok, -, hword, -, hport⟩ := (inv_running_iff hi).1 hs
  cases r with
  | ok o =>
    refine (inv_idle_iff (commit_seq s o)).2 ⟨rfl, rfl, ?_, fun h => ⟨herr, ?_⟩, ?_, hport⟩
    · simp [herr, hcode]
    · have hverify : i = .verify := hr fun hnone => by simp [hnone, hvok] at h
      subst hverify
      exact (encode_of_decode hword).symm
    · simp [hcode]
  | raise c =>
    exact (inv_idle_iff (fail_seq s _ c)).2
      ⟨rfl, rfl, ⟨fun _ => rfl, fun _ => code_ne_zero c⟩, by simp [hvok], code_le c, by simpa using hport⟩
  | needRng w =>
    obtain ⟨rfl, hkey⟩ := hr
    refine (inv_running_iff (current_waitRng (await_seq s w))).2
      ⟨hbusy, hdone, herr, hcode, hvok, rfl, hword, fun z d h => ?_, hport⟩
    exact hkey z d (Seq.waitRng.inj h)

/-- The sequencer's turn keeps the invariant (spec/10_state.md R44, R45). -/
theorem sequencerTurn_inv {s t : State} (hs : s.Inv) (h : sequencerTurn s = .next t) : t.Inv := by
  cases hi : s.current with
  | none =>
    rw [sequencerTurn_idle (current_eq_none hi)] at h
    cases h; exact hs
  | some i =>
    rw [sequencerTurn_current hi] at h
    rcases exec_cases i s with he | ⟨w, -, -, ⟨-, he⟩ | ⟨x, hx, -⟩⟩
    · rw [he] at h
      cases h; exact conclude_inv hs hi (beginOf_allowed i s.snap)
    · rw [he] at h
      cases h; exact hs
    · simp [hs.seq.portEmpty] at hx

/-- A delivered word keeps the invariant: the attempt that takes it empties the port (spec/60_exceptions.md R213). -/
theorem deliverWord_inv {s t : State} {x : Word256} (hs : s.Inv) (h : deliverWord x s = .next t) : t.Inv := by
  unfold deliverWord at h
  split at h
  · next hreq =>
    obtain ⟨w, hw⟩ := (rngReq_iff s).1 hreq
    have hw' : ({ s with rngIn := some x } : State).seq = .waitRng w := hw
    have hport : ({ s with rngIn := none } : State) = s := by rw [← hs.seq.portEmpty]
    rw [sequencerTurn_current (current_waitRng hw'), exec_delivered hw' rfl, hport] at h
    cases h
    exact conclude_inv hs (current_waitRng hw) (attemptOf_allowed x fun z d hz => hs.seq.signKey z d (hz ▸ hw))
  · cases h; exact hs

/-- Accept and drop keep the invariant (spec/10_state.md R42, R43). -/
theorem cmdWrite_inv {s : State} (v : Word32) (hs : s.Inv) : (s.cmdWrite v).Inv := by
  cases hb : s.status.busy with
  | true =>
    obtain ⟨i, hi⟩ : ∃ i, s.current = some i :=
      Option.ne_none_iff_exists'.1 fun hnone => hs.status.busyIff.1 hb (current_eq_none hnone)
    rw [cmdWrite_busy v hb]
    exact (inv_running_iff (s := s.drop) hi).2 ((inv_running_iff hi).1 hs)
  | false =>
    have hidle : s.seq = .idle := by simpa [hb] using hs.status.busyIff
    obtain ⟨hbusy, hwait, -, -, -, hport⟩ := (inv_idle_iff hidle).1 hs
    rw [cmdWrite_idle v hb]
    cases hd : decode v with
    | illegal why =>
      have hseq : (s.accept v).seq = .idle := by rw [accept_illegal hd, hidle]
      rw [inv_idle_iff hseq, accept_illegal hd]
      exact ⟨hbusy, hwait, ⟨fun _ => rfl, fun _ => code_ne_zero .illegalCommand⟩, (fun h => by cases h),
        code_le .illegalCommand, hport⟩
    | instr i =>
      have hcur : (s.accept v).current = some i := by
        rw [accept_legal hd]
        exact (current_run rfl).trans (congrArg some (ofOp_of_decode hd))
      rw [inv_running_iff hcur, accept_legal hd]
      exact ⟨rfl, rfl, rfl, rfl, rfl, hwait, hd, (fun z d h => by cases h), hport⟩

/-- The W1C write clears ERR and ERRCODE together or keeps both (spec/10_state.md R30). -/
theorem w1c_err_errcode (st : Status) (v : Word32) :
    ((st.w1c v).err = false ∧ (st.w1c v).errcode = 0) ∨
      ((st.w1c v).err = st.err ∧ (st.w1c v).errcode = st.errcode) := by
  simp only [Status.w1c]
  cases v.getLsbD 2 <;> simp

/-- The W1C write of STATUS keeps the invariant. -/
theorem w1c_inv {s : State} (v : Word32) (hs : s.Inv) : ({ s with status := s.status.w1c v } : State).Inv := by
  obtain ⟨⟨hclear, herr, hwait, hbusyIff, hvok⟩, ⟨hreq, hword, hkey, hrange, hempty⟩⟩ := hs
  have hdone (h : s.status.done = false) : (s.status.w1c v).done = false := by simp [Status.w1c, h]
  rcases w1c_err_errcode s.status v with ⟨herr', hcode'⟩ | ⟨herr', hcode'⟩
  · refine ⟨⟨fun hb => ?_, by simp [herr', hcode'], hwait, hbusyIff, fun hv => ⟨herr', (hvok hv).2⟩⟩,
      ⟨hreq, hword, hkey, by simp [hcode'], hempty⟩⟩
    obtain ⟨hd, -, -, hv⟩ := hclear hb
    exact ⟨hdone hd, herr', hcode', hv⟩
  · refine ⟨⟨fun hb => ?_, by simpa only [herr', hcode'] using herr, hwait, hbusyIff, fun hv => ?_⟩,
      ⟨hreq, hword, hkey, by simpa only [hcode'] using hrange, hempty⟩⟩
    · obtain ⟨hd, he, hc, hv⟩ := hclear hb
      exact ⟨hdone hd, herr'.trans he, hcode'.trans hc, hv⟩
    · exact ⟨herr'.trans (hvok hv).1, (hvok hv).2⟩

/-- A write to any register keeps the invariant (spec/20_memory.md R64). -/
theorem writeReg_inv {s : State} (r : RegSel) (v : Word32) (hs : s.Inv) : (s.writeReg r v).Inv := by
  cases r with
  | cmd => exact cmdWrite_inv v hs
  | status => exact w1c_inv v hs
  | id => exact hs
  | rflags => exact hs
  | ctrl => exact hs.congr rfl rfl rfl rfl rfl
  | pflags => exact hs.congr rfl rfl rfl rfl rfl
  | word q i =>
    exact hs.congr (setInput_status ..) (setInput_seq ..) (setInput_snap ..) (setInput_cmdLast ..) (setInput_rngIn ..)

/-- A bus response is no part of the invariant. -/
theorem respond_inv {s : State} (r : BusResp) (hs : s.Inv) : (s.respond r).Inv := hs.congr rfl rfl rfl rfl rfl

/-- A bus write keeps the invariant. -/
theorem busWrite_inv {s : State} (off : Offset) (width : Nat) (v : Word32) (hs : s.Inv) :
    (s.busWrite off width v).Inv := by
  unfold State.busWrite
  split
  · exact respond_inv _ hs
  · split
    · exact respond_inv _ hs
    · exact respond_inv _ (writeReg_inv _ v hs)

/-- Every step keeps the invariant, over every event (spec/20_memory.md R72). -/
theorem step_inv {s t : State} (hs : s.Inv) (h : step s = .next t) : t.Inv := by
  cases hp : s.pending with
  | nil => exact sequencerTurn_inv hs (step_nil hp ▸ h)
  | cons e rest =>
    have hs' : ({ s with pending := rest } : State).Inv := hs.congr rfl rfl rfl rfl rfl
    rw [step_cons hp] at h
    cases e with
    | read off width => cases h; exact respond_inv _ hs'
    | write off width v => cases h; exact busWrite_inv off width v hs'
    | deliver w => exact deliverWord_inv hs' h
    | tick => exact sequencerTurn_inv hs' h
    | reset => cases h; exact reset_inv rest s.draws

/-- Every reachable state meets the invariant. -/
theorem reachable_inv {s : State} (h : Reachable s) : s.Inv := by
  induction h with
  | start events draws => exact reset_inv events draws
  | step s t _ hst ih => exact step_inv ih hst

/-- Settles O19: the STATUS part of the invariant of every reachable state. -/
theorem statusInvariantsHoldInReachableStates : Obligations.StatusInvariantsHoldInReachableStates := by
  intro s hs
  obtain ⟨hclear, herr, hwait, hbusyIff, hvok⟩ := (reachable_inv hs).status
  exact ⟨hclear, herr, hwait, hbusyIff, hvok⟩

end Sys2Proof.Machine

/-! # Proofs: the register window (spec/20_memory.md) -/

namespace Sys2Proof.Machine

/-! ### The register map, read backwards (R61, R62, R70) -/

/-- The rows the statements name are the register map's 256-bit rows. -/
theorem inputMap_append_readOnlyMap : inputMap ++ readOnlyMap = wideMap := rfl

/-- Every 256-bit row starts at an aligned offset and lies inside the window. -/
theorem wideMap_base : ∀ row ∈ wideMap, row.1 % 4 = 0 ∧ row.1 ≤ 0x2C0 := by decide

/-- The offset of a word of a 256-bit register fits its twelve bits. -/
theorem toNat_wordOffset {row : Nat × WideReg} (hrow : row ∈ wideMap) {i : Nat} (hi : i < 8) :
    (BitVec.ofNat 12 (row.1 + 4 * i)).toNat = row.1 + 4 * i := by
  obtain ⟨-, hle⟩ := wideMap_base row hrow
  rw [BitVec.toNat_ofNat, Nat.mod_eq_of_lt (by omega)]

/-- A mapped offset is that of a 32-bit row or of a word of a 256-bit row. -/
theorem regAt_eq_some {off : Nat} {r : RegSel} (h : regAt off = some r) :
    (off, r) ∈ narrowMap ∨ ∃ row ∈ wideMap, ∃ i < 8, off = row.1 + 4 * i ∧ r = .word row.2 i := by
  unfold regAt at h
  split at h
  · cases h
  · next halign =>
    split at h
    · next row hfind =>
      have hbase : row.1 = off := by simpa using List.find?_some hfind
      cases h
      exact .inl (hbase ▸ List.mem_of_find?_eq_some hfind)
    · split at h
      · next row hfind =>
        have hrow := List.mem_of_find?_eq_some hfind
        have hrange : row.1 ≤ off ∧ off < row.1 + 0x20 := by simpa using List.find?_some hfind
        obtain ⟨hbase, -⟩ := wideMap_base row hrow
        cases h
        exact .inr ⟨row, hrow, (off - row.1) / 4, by omega, by omega, rfl⟩
      · cases h

/-- A mapped register is read-only where its offset is a read-only one (R61, R64). -/
theorem readOnlyReg_iff {off : Offset} {r : RegSel} (h : regAt off.toNat = some r) :
    readOnlyReg r = true ↔ ReadOnlyOffset off := by
  unfold ReadOnlyOffset
  rcases regAt_eq_some h with hnarrow | ⟨row, hrow, i, hi, hoff, rfl⟩
  · generalize off.toNat = n at hnarrow
    fin_cases hnarrow <;> decide
  · rw [hoff]
    fin_cases hrow <;> simp [readOnlyReg] <;> omega

/-- An access reaches no register where R65 refuses it by its offset or its width. -/
theorem accessed_eq_none {off : Offset} {width : Nat} :
    accessed off width = none ↔ off.toNat % 4 ≠ 0 ∨ width ≠ 32 ∨ ReservedOffset off := by
  by_cases hw : width = 32
  · simp [accessed, hw, regAt_none off.toNat off.isLt, ReservedOffset]
  · simp [accessed, hw]

/-- An access of 32 bits reaches what its offset names, and no other access reaches a register (R62). -/
theorem accessed_eq_some {off : Offset} {width : Nat} {r : RegSel} :
    accessed off width = some r ↔ width = 32 ∧ regAt off.toNat = some r := by
  simp [accessed]

/-! ### What a bus read answers (R63) -/

/-- A read that reaches no register (R65). -/
theorem busRead_refused {s : State} {off : Offset} {width : Nat} (h : accessed off width = none) :
    s.busRead off width = .read .slverr 0 := by
  rw [State.busRead, h]

/-- A read of a mapped register. -/
theorem busRead_mapped {s : State} {off : Offset} {r : RegSel} (h : regAt off.toNat = some r) :
    s.busRead off 32 = .read .okay (s.readReg r) := by
  rw [State.busRead, accessed_eq_some.2 ⟨rfl, h⟩]

/-- The coming events show in no register. -/
theorem readReg_pending (s : State) (rest : List Event) (r : RegSel) :
    ({ s with pending := rest } : State).readReg r = s.readReg r := by
  cases r with
  | word q i => cases q <;> rfl
  | _ => rfl

/-- A read event leaves every register as it is and answers the bus read. -/
theorem step_read_resp {s : State} {off : Offset} {width : Nat} {rest : List Event}
    (hp : s.pending = .read off width :: rest) :
    step s = .next { s with pending := rest, resp := some (s.busRead off width) } := by
  have hresp : ({ s with pending := rest } : State).busRead off width = s.busRead off width := by
    simp only [State.busRead, readReg_pending]
  rw [step_read hp, hresp]
  rfl

/-- A refused read event (R65). -/
theorem step_read_refused {s : State} {off : Offset} {width : Nat} {rest : List Event}
    (hp : s.pending = .read off width :: rest) (h : accessed off width = none) :
    step s = .next { s with pending := rest, resp := some (.read .slverr 0) } := by
  rw [step_read_resp hp, busRead_refused h]

/-! ### The words the registers read as -/

/-- The number of a concatenation: the high part at its weight, and the low part. -/
theorem toNat_append_eq_add {m n : Nat} (x : BitVec m) (y : BitVec n) :
    (x ++ y).toNat = 2 ^ n * x.toNat + y.toNat := by
  rw [BitVec.toNat_append, ← Nat.shiftLeft_add_eq_or_of_lt y.isLt, Nat.shiftLeft_eq, mul_comm]

/-- A flag alone in bit 0 (spec/10_state.md R28, R33). -/
theorem setWidth_ofBool (b : Bool) : BitVec.setWidth 32 (BitVec.ofBool b) = if b then 1 else 0 := by
  cases b <;> rfl

/-- The fields of STATUS at their weights (spec/10_state.md R30). -/
theorem status_word_eq (st : Status) : st.word = BitVec.ofNat 32 (st.busy.toNat + 2 * st.done.toNat +
    4 * st.err.toNat + 8 * st.vok.toNat + 16 * st.ovr.toNat + 32 * st.rngwait.toNat + 256 * st.errcode.toNat) := by
  have hbusy := Bool.toNat_lt st.busy
  have hdone := Bool.toNat_lt st.done
  have herr := Bool.toNat_lt st.err
  have hvok := Bool.toNat_lt st.vok
  have hovr := Bool.toNat_lt st.ovr
  have hrngwait := Bool.toNat_lt st.rngwait
  have hcode := st.errcode.isLt
  refine BitVec.eq_of_toNat_eq ?_
  simp only [Status.word, toNat_append_eq_add, BitVec.toNat_ofNat, BitVec.toNat_ofBool, BitVec.ofNat_eq_ofNat]
  omega

/-- P1INF in bit 0 and P2INF in bit 1 (spec/10_state.md R32). -/
theorem pflags_word_eq (p1 p2 : Bool) : BitVec.setWidth 32 (BitVec.ofBool p2 ++ BitVec.ofBool p1) =
    BitVec.ofNat 32 (p1.toNat + 2 * p2.toNat) := by
  cases p1 <;> cases p2 <;> rfl

/-- A word of a 256-bit register as a quotient by its weight (R66). -/
theorem getWord_eq_ofNat (reg : Word256) (i : Nat) : getWord reg i = BitVec.ofNat 32 (reg.toNat / 2 ^ (32 * i)) :=
  BitVec.eq_of_toNat_eq (by rw [getWord_toNat, BitVec.toNat_ofNat])

/-- Settles O22: the data is what the mapped register reads as, and each clause is a row of the register map. -/
theorem busReadReturnsTheRegister : Obligations.BusReadReturnsTheRegister := by
  refine ⟨fun s off width rest hp hw => step_read_refused hp (accessed_eq_none.2 (.inr (.inl hw))),
    fun s off rest hp => ⟨(regAt off.toNat).map s.readReg, ?_⟩⟩
  have hdata {n : Nat} {r : RegSel} (hn : regAt n = some r) (h : off.toNat = n) :
      (regAt off.toNat).map s.readReg = some (s.readReg r) := by rw [h, hn]; rfl
  refine ⟨hdata (r := .id) rfl, fun h => ?_, hdata (r := .cmd) rfl, fun h => ?_, fun h => ?_, fun h => ?_,
    fun row hrow i hi h => ?_, fun h => ?_, ?_⟩
  · rw [hdata (r := .ctrl) rfl h, State.readReg, setWidth_ofBool]
  · rw [hdata (r := .status) rfl h, State.readReg, status_word_eq]
  · rw [hdata (r := .pflags) rfl h, State.readReg, pflags_word_eq]
  · rw [hdata (r := .rflags) rfl h, State.readReg, setWidth_ofBool]
  · rw [inputMap_append_readOnlyMap] at hrow
    rw [hdata (regAt_word row hrow i hi) h, State.readReg, getWord_eq_ofNat]
  · rw [(regAt_none off.toNat off.isLt).2 h]
    rfl
  · rw [step_read_resp hp]
    cases hreg : regAt off.toNat with
    | none => rw [busRead_refused (width := 32) hreg]; rfl
    | some r => rw [busRead_mapped hreg]; rfl

/-! ### Refused writes and reserved bits (R65) -/

/-- Above its own bits a widened value reads 0. -/
theorem getLsbD_setWidth_of_le {m n b : Nat} (x : BitVec m) (h : m ≤ b) : (x.setWidth n).getLsbD b = false := by
  rw [BitVec.getLsbD_setWidth, BitVec.getLsbD_of_ge x b h, Bool.and_false]

/-- Bits 7:6 and 31:12 of STATUS read 0 (spec/10_state.md R30). -/
theorem status_word_reserved (st : Status) {b : Nat} (hb : b = 6 ∨ b = 7 ∨ 12 ≤ b) : st.word.getLsbD b = false := by
  simp only [Status.word, BitVec.getLsbD_append]
  rcases hb with rfl | rfl | hb
  · rfl
  · rfl
  · simp (disch := omega) only [Nat.sub_sub, if_neg]
    exact BitVec.getLsbD_zero

/-- The reserved bits of CTRL, STATUS, PFLAGS and RFLAGS read 0 in every state. -/
theorem readReg_reserved (s : State) {r : RegSel} (hr : r ∈ [RegSel.ctrl, .status, .pflags, .rflags]) {b : Nat}
    (hctrl : r = .ctrl → 1 ≤ b) (hrflags : r = .rflags → 1 ≤ b) (hpflags : r = .pflags → 2 ≤ b)
    (hstatus : r = .status → b = 6 ∨ b = 7 ∨ 12 ≤ b) : (s.readReg r).getLsbD b = false := by
  fin_cases hr
  · exact getLsbD_setWidth_of_le (BitVec.ofBool s.ie) (hctrl rfl)
  · exact status_word_reserved s.status (hstatus rfl)
  · exact getLsbD_setWidth_of_le (BitVec.ofBool s.p2inf ++ BitVec.ofBool s.p1inf) (hpflags rfl)
  · exact getLsbD_setWidth_of_le (BitVec.ofBool s.rinf) (hrflags rfl)

/-- A refused write event (R65): what a read-only offset names is read-only. -/
theorem step_write_refused {s : State} {off : Offset} {width : Nat} {v : Word32} {rest : List Event}
    (hp : s.pending = .write off width v :: rest) (h : accessed off width = none ∨ ReadOnlyOffset off) :
    step s = .next { s with pending := rest, resp := some (.write .slverr) } := by
  have hro (r : RegSel) (hr : accessed off width = some r) : readOnlyReg r = true := by
    obtain ⟨-, hreg⟩ := accessed_eq_some.1 hr
    refine (readOnlyReg_iff hreg).2 (h.resolve_left ?_)
    simp [hr]
  rw [step_write hp, busWrite_refused hro]
  rfl

/-- Settles O24: a refused access reaches no writable register, and reserved bits read 0 in every state, so in the
state after a write too. -/
theorem refusedAccessesChangeNothing : Obligations.RefusedAccessesChangeNothing := by
  refine ⟨fun s off width rest hp h => step_read_refused hp (accessed_eq_none.2 h),
    fun s off width v rest hp h => step_write_refused hp ?_, fun s r v hr b hctrl hrflags hpflags hstatus => ?_⟩
  · simpa only [accessed_eq_none, or_assoc] using h
  · exact ⟨readReg_reserved s hr hctrl hrflags hpflags hstatus,
      readReg_reserved _ hr hctrl hrflags hpflags hstatus⟩

/-! ### The eight words of a register (R66) -/

/-- A register is the sum of its words at their weights. -/
theorem toNat_eq_sum_words (reg : Word256) :
    reg.toNat = ((List.range 8).map (fun i => (getWord reg i).toNat * 2 ^ (32 * i))).sum := by
  simpa only [sum_range8, getWord_toNat, add_assoc] using sum_of_words reg.toNat reg.isLt

/-- GET256 assembles the register from its words (spec/30_encoding.md R88). -/
theorem assemble_getWord (reg : Word256) : assemble ((List.range 8).map (getWord reg)) = reg.toNat := by
  rw [toNat_eq_sum_words, sum_range8, assemble_range8]
  ring

/-- Settles O25: the offset names the word, and a number is the sum of its digits. -/
theorem wideRegisterIsTheSumOfItsWords : Obligations.WideRegisterIsTheSumOfItsWords := by
  intro s row hrow
  rw [inputMap_append_readOnlyMap] at hrow
  refine ⟨fun i hi => ?_, fun i _ => getWord_toNat _ i, toNat_eq_sum_words _, assemble_getWord _⟩
  have hreg : regAt (BitVec.ofNat 12 (row.1 + 4 * i)).toNat = some (.word row.2 i) := by
    rw [toNat_wordOffset hrow hi, regAt_word row hrow i hi]
  rw [busRead_mapped hreg, State.readReg, getWord]

end Sys2Proof.Machine

/-! # Proofs: the legal and the illegal command words (spec/30_encoding.md) -/

namespace Sys2Proof.Machine

/-! ### The twelve words (R84, R85) -/

/-- The word of a command decodes to it, row by row of the opcode map. -/
theorem decode_encode (i : Instr) : decode (encode i) = .instr i := by cases i <;> decide

/-- The legal words are the words of the commands. -/
theorem legalBits_iff_encode (v : Word32) : LegalBits v ↔ ∃ i, encode i = v := by
  constructor
  · intro hleg
    obtain ⟨i, hd⟩ := (decode_instr_iff_legalBits v).2 hleg
    exact ⟨i, encode_of_decode hd⟩
  · rintro ⟨i, rfl⟩
    exact (decode_instr_iff_legalBits _).1 ⟨i, decode_encode i⟩

/-- The commands in the order of the opcode map (R84). -/
def commands : List Instr :=
  [.invP, .invN, .expP, .expN, .padd, .pdbl, .smul, .genpriv, .derive, .keypair, .sign, .verify]

/-- No command is missing from the list. -/
theorem mem_commands (i : Instr) : i ∈ commands := by cases i <;> decide

/-- The words of the opcode map, written out. -/
theorem map_encode_commands : commands.map encode =
    [0x00000001, 0x00000011, 0x00000002, 0x00000012, 0x00000003, 0x00000004, 0x00000005, 0x00000006, 0x00000007,
     0x00000008, 0x00000009, 0x0000000A] := by decide

/-- Settles O5: a word is legal exactly when some command has it, and the commands' words are the twelve. -/
theorem legalWordsAreTheTwelve : Obligations.LegalWordsAreTheTwelve := by
  refine ⟨decode_instr_iff_legalBits, fun v => ?_⟩
  rw [legalBits_iff_encode, ← map_encode_commands, List.mem_map]
  simp only [mem_commands, true_and]

/-! ### Illegal words (R86) -/

/-- The three ways to be illegal are the negation of `LegalBits` (R85, R86). -/
theorem not_legalBits_iff (v : Word32) : ¬ LegalBits v ↔
    (v.extractLsb' 0 4).toNat = 0 ∨ 0xB ≤ (v.extractLsb' 0 4).toNat ∨ v.extractLsb' 5 27 ≠ 0 ∨
      (v.getLsbD 4 = true ∧ (v.extractLsb' 0 4).toNat ≠ 0x1 ∧ (v.extractLsb' 0 4).toNat ≠ 0x2) := by
  have hopc (n : Nat) : n = 0 ∨ 0xB ≤ n ↔ ¬ (1 ≤ n ∧ n ≤ 0xA) := by omega
  rw [← or_assoc, hopc, LegalBits, ← Bool.not_eq_false]
  tauto

/-- An idle block completes an illegal word at once with code 4, whichever word it is (spec/10_state.md R42). -/
theorem step_cmd_illegal {s : State} {v : Word32} {rest : List Event} (hp : s.pending = .write 0x008 32 v :: rest)
    (hidle : s.status.busy = false) (hill : ¬ LegalBits v) :
    step s = .next { s with
      cmdLast := v
      status := { s.status with done := true, err := true, errcode := 4, vok := false }
      pending := rest, resp := some (.write .okay) } := by
  obtain ⟨t, hstep, ht, -⟩ := cmdWriteWhileIdleIsAccepted s v rest hp hidle
  rw [hstep, ht hill]

/-- Settles O9: the accept of an illegal word keeps nothing of the word but CMD_LAST, and the drop keeps nothing of
any word. -/
theorem illegalWordsBehaveIdentically : Obligations.IllegalWordsBehaveIdentically := by
  refine ⟨fun v => (not_legalBits_iff v).symm, fun s s' v v' rest hill hill' hp hs' => ?_⟩
  obtain rfl := hs'
  cases hb : s.status.busy with
  | false =>
    refine ⟨_, step_cmd_illegal hp hb hill, fun _ => ⟨?_, rfl, rfl, rfl, hb, rfl, rfl, rfl, rfl, rfl, rfl⟩, nofun⟩
    exact step_cmd_illegal rfl hb hill'
  | true =>
    exact ⟨_, cmdWriteWhileBusyIsDropped s v rest hp hb, nofun,
      fun _ => ⟨cmdWriteWhileBusyIsDropped _ v' rest rfl hb, rfl⟩⟩

end Sys2Proof.Machine

/-! # Proofs: curve points (spec/41_point_ops.md) -/

namespace Sys2Proof.Machine

/-! ### The checker and the multiplexer (R121, R123) -/

/-- `modInt` is zero where the integer's remainder is. -/
theorem modInt_eq_zero_iff_emod (a : Int) {m : Nat} (hm : 0 < m) : modInt a m = 0 ↔ a % (m : Int) = 0 := by
  rw [← modInt_cast a hm, Int.natCast_eq_zero]

/-- Settles O31: the checker's `modInt` is the remainder over the integers. -/
theorem onCurveIsTheCurveEquation : Obligations.OnCurveIsTheCurveEquation := by
  refine ⟨rfl, fun x y => ?_⟩
  simp only [onCurve, Bool.and_eq_true, decide_eq_true_eq, and_assoc,
    modInt_eq_zero_iff_emod _ (Nat.zero_lt_one.trans one_lt_dpP)]
  rfl

/-- Settles O32: the multiplexer by the two points' constructors. -/
theorem identityMuxSelects : Obligations.IdentityMuxSelects := by
  refine ⟨fun Q => rfl, fun P hP => ?_, fun P Q hP hQ => ?_⟩
  · cases P with
    | inf => exact absurd rfl hP
    | fin x y => rfl
  · cases P with
    | inf => exact absurd rfl hP
    | fin x y =>
      cases Q with
      | inf => exact absurd rfl hQ
      | fin x' y' => rfl

/-! ### The branches of the point_adder (R124) -/

/-- AddPoints answers on checked points only. -/
theorem onCurve_of_addPoints_ok {P Q R : Point} (h : addPoints P Q = .ok R) : onCurve P = true ∧ onCurve Q = true := by
  by_contra hoff
  rw [addPoints_off hoff] at h
  cases h

/-- INF is the identity on the left. -/
theorem addPoints_inf_left {Q : Point} (hQ : onCurve Q = true) : addPoints .inf Q = .ok Q := by
  unfold addPoints
  rw [hQ]; rfl

/-- Two finite checked points go to the steps after identity_mux. -/
theorem addPoints_fin {xP yP xQ yQ : Nat} (hP : onCurve (.fin xP yP) = true) (hQ : onCurve (.fin xQ yQ) = true) :
    addPoints (.fin xP yP) (.fin xQ yQ) = addFinite xP yP xQ yQ := by
  unfold addPoints
  rw [hP, hQ]; rfl

/-- Step 2: opposite points sum to INF. -/
theorem addFinite_opposite {x yP yQ : Nat} (hsum : (yP + yQ) % dpP = 0) : addFinite x yP x yQ = .ok .inf :=
  if_pos ⟨rfl, hsum⟩

/-- Steps 4 and 6: the tangent. The test of step 3 is settled by that of step 2. -/
theorem addFinite_tangent {x y lam : Nat} (h2y : (y + y) % dpP ≠ 0) (hlam : tangentSlope x y = .ok lam) :
    addFinite x y x y = .ok (chordPoint lam x y x) := by
  have hy : y ≠ 0 := by rintro rfl; exact h2y (Nat.zero_mod _)
  rw [addFinite, if_neg fun h => h2y h.2, if_pos ⟨rfl, rfl⟩, if_neg hy, hlam]

/-- Steps 5 and 6: the chord. -/
theorem addFinite_chord {xP yP xQ yQ lam : Nat} (hopp : ¬(xP = xQ ∧ (yP + yQ) % dpP = 0))
    (hne : ¬(xP = xQ ∧ yP = yQ)) (hlam : chordSlope xP yP xQ yQ = .ok lam) :
    addFinite xP yP xQ yQ = .ok (chordPoint lam xP yP xQ) := by
  rw [addFinite, if_neg hopp, if_neg hne, hlam]

/-! ### The slopes and the third point, as congruences over the integers (R124) -/

/-- `modInt` differs from its integer by a multiple of the modulus. -/
theorem modInt_sub_emod (a : Int) {m : Nat} (hm : 0 < m) : ((modInt a m : Int) - a) % (m : Int) = 0 := by
  rw [modInt_cast a hm, ← Int.emod_eq_emod_iff_emod_sub_eq_zero, Int.emod_emod]

/-- Step 6 answers canonical coordinates, congruent to the formulas of R124. -/
theorem chordPoint_congruences (lam xP yP xQ : Nat) : ∃ xR yR : Nat, chordPoint lam xP yP xQ = .fin xR yR ∧
    xR < dpP ∧ yR < dpP ∧ ((xR : Int) - ((lam : Int) * lam - xP - xQ)) % dpP = 0 ∧
    ((yR : Int) - ((lam : Int) * ((xP : Int) - xR) - yP)) % dpP = 0 :=
  have hp : 0 < dpP := Nat.zero_lt_one.trans one_lt_dpP
  ⟨_, _, rfl, modInt_lt _ hp, modInt_lt _ hp, modInt_sub_emod _ hp, modInt_sub_emod _ hp⟩

section
variable [Fact (Nat.Prime dpP)]

/-- A remainder mod p is zero where the integer is zero in the field. -/
theorem emod_dpP_eq_zero_iff (a : Int) : a % (dpP : Int) = 0 ↔ (a : ZMod dpP) = 0 := by
  rw [← Int.dvd_iff_emod_eq_zero, ZMod.intCast_zmod_eq_zero_iff_dvd]

/-- A numerator times the inverse of a denominator, times the denominator again, is the numerator. -/
theorem mul_modMul_invMod {d i : Nat} (n : Nat) (hd : d % dpP ≠ 0) (hi : invMod d dpP = .ok i) :
    (d : ZMod dpP) * (modMul n i dpP : Nat) = n := by
  have hd' : (d : ZMod dpP) ≠ 0 := fun h => hd (Nat.mod_eq_zero_of_dvd ((ZMod.natCast_eq_zero_iff _ _).1 h))
  rw [modMul, modInt_zmod]
  push_cast
  rw [invMod_zmod Fact.out hi, mul_comm, inv_mul_cancel_right₀ hd']

/-- The slope of step 4. -/
theorem tangentSlope_congruence {x y : Nat} (h2y : (2 * y) % dpP ≠ 0) : ∃ lam, tangentSlope x y = .ok lam ∧
    lam < dpP ∧ ((2 * y * lam : Int) - (3 * x * x + dpA)) % dpP = 0 := by
  have hi := invMod_ok h2y
  rw [tangentSlope, hi]
  refine ⟨_, rfl, modInt_lt _ (Fact.out : Nat.Prime dpP).pos, ?_⟩
  have hlam := mul_modMul_invMod (modAdd (3 * x * x) dpA dpP) h2y hi
  rw [modAdd, modInt_zmod] at hlam
  rw [emod_dpP_eq_zero_iff]
  push_cast at hlam ⊢
  exact sub_eq_zero.2 hlam

/-- The slope of step 5. -/
theorem chordSlope_congruence {xP xQ : Nat} (yP yQ : Nat) (hd : modSub xP xQ dpP % dpP ≠ 0) :
    ∃ lam, chordSlope xP yP xQ yQ = .ok lam ∧ lam < dpP ∧
      (((xP : Int) - xQ) * lam - ((yP : Int) - yQ)) % dpP = 0 := by
  have hi := invMod_ok hd
  rw [chordSlope, hi]
  refine ⟨_, rfl, modInt_lt _ (Fact.out : Nat.Prime dpP).pos, ?_⟩
  have hlam := mul_modMul_invMod (modSub yP yQ dpP) hd hi
  rw [modSub, modInt_zmod, modSub, modInt_zmod] at hlam
  rw [emod_dpP_eq_zero_iff]
  push_cast at hlam ⊢
  exact sub_eq_zero.2 hlam

/-! ### Which checked points meet (R125) -/

/-- Two checked points of one x have equal or opposite y, since they have one y². -/
theorem eq_or_opposite_of_same_x {x y y' : Nat} (h : onCurve (.fin x y) = true) (h' : onCurve (.fin x y') = true) :
    y = y' ∨ (y + y') % dpP = 0 := by
  obtain ⟨-, hy, he⟩ := (onCurve_fin x y).1 h
  obtain ⟨-, hy', he'⟩ := (onCurve_fin x y').1 h'
  rcases sq_eq_sq_iff_eq_or_eq_neg.1 (he.trans he'.symm) with heq | hneg
  · exact .inl (natCast_inj_of_lt hy hy' heq)
  · refine .inr (Nat.mod_eq_zero_of_dvd ((ZMod.natCast_eq_zero_iff _ _).1 ?_))
    rw [Nat.cast_add, hneg, neg_add_cancel]

/-- The argument of Inv in the chord step is not 0 (R125). -/
theorem chord_denominator_ne_zero {xP yP xQ yQ : Nat} (hP : onCurve (.fin xP yP) = true)
    (hQ : onCurve (.fin xQ yQ) = true) (hopp : ¬(xP = xQ ∧ (yP + yQ) % dpP = 0)) (hne : ¬(xP = xQ ∧ yP = yQ)) :
    modSub xP xQ dpP % dpP ≠ 0 := by
  have hp : 0 < dpP := (Fact.out : Nat.Prime dpP).pos
  rw [modSub, Nat.mod_eq_of_lt (modInt_lt _ hp), Ne, modInt_eq_zero_iff, Int.cast_sub, sub_eq_zero]
  intro h
  obtain rfl := natCast_inj_of_lt ((onCurve_fin xP yP).1 hP).1 ((onCurve_fin xQ yQ).1 hQ).1 (by simpa using h)
  rcases eq_or_opposite_of_same_x hP hQ with heq | hsum
  · exact hne ⟨rfl, heq⟩
  · exact hopp ⟨rfl, hsum⟩

/-- The argument of Inv in the tangent step is not 0 (R125). -/
theorem tangent_denominator_ne_zero {x y : Nat} (h : onCurve (.fin x y) = true) : y ≠ 0 ∧ (2 * y) % dpP ≠ 0 := by
  have hp : Nat.Prime dpP := Fact.out
  have hy : y ≠ 0 := no_point_has_y_zero.2.2 x y h
  refine ⟨hy, fun h2y => ?_⟩
  rcases hp.dvd_mul.1 (Nat.dvd_of_mod_eq_zero h2y) with h2 | hdvd
  · exact absurd (Nat.le_of_dvd two_pos h2) (by decide +kernel)
  · exact hy (Nat.eq_zero_of_dvd_of_lt hdvd ((onCurve_fin x y).1 h).2.1)

/-- On two checked finite points that are not opposite, AddPoints is the third point of a line through them, the
tangent if they are equal (R124). -/
theorem addPoints_line {xP yP xQ yQ : Nat} (hP : onCurve (.fin xP yP) = true) (hQ : onCurve (.fin xQ yQ) = true)
    (hopp : ¬(xP = xQ ∧ (yP + yQ) % dpP = 0)) : ∃ lam : Nat, lam < dpP ∧
      addPoints (.fin xP yP) (.fin xQ yQ) = .ok (chordPoint lam xP yP xQ) ∧
      (xP = xQ ∧ yP = yQ → ((2 * yP * lam : Int) - (3 * xP * xP + dpA)) % dpP = 0) ∧
      (¬(xP = xQ ∧ yP = yQ) → (((xP : Int) - xQ) * lam - ((yP : Int) - yQ)) % dpP = 0) := by
  rw [addPoints_fin hP hQ]
  by_cases heq : xP = xQ ∧ yP = yQ
  · obtain ⟨lam, hlam, hlt, hcong⟩ := tangentSlope_congruence (x := xP) (tangent_denominator_ne_zero hP).2
    obtain ⟨rfl, rfl⟩ := heq
    exact ⟨lam, hlt, addFinite_tangent (fun h => hopp ⟨rfl, h⟩) hlam, fun _ => hcong, fun h => absurd ⟨rfl, rfl⟩ h⟩
  · obtain ⟨lam, hlam, hlt, hcong⟩ := chordSlope_congruence yP yQ (chord_denominator_ne_zero hP hQ hopp heq)
    exact ⟨lam, hlt, addFinite_chord hopp heq hlam, fun h => absurd h heq, fun _ => hcong⟩

/-! ### AddPoints as the group's addition (R122, R125) -/

/-- AddPoints answers R where the group's sum is R. -/
theorem addPoints_eq_ok_iff {P Q R : Point} (hP : onCurve P = true) (hQ : onCurve Q = true) (hR : onCurve R = true) :
    addPoints P Q = .ok R ↔ P.toGroup + Q.toGroup = R.toGroup := by
  obtain ⟨S, hS, hSc, hSg⟩ := addPoints_toGroup hP hQ
  rw [hS, ← hSg, Except.ok.injEq]
  exact ⟨congrArg _, toGroup_injective hSc hR⟩

/-- AddPoints takes its operands in either order (R125). -/
theorem addPoints_comm {P Q : Point} (hP : onCurve P = true) (hQ : onCurve Q = true) :
    addPoints P Q = addPoints Q P := by
  obtain ⟨R, hR, hRc, hRg⟩ := addPoints_toGroup hP hQ
  rw [hR, (addPoints_eq_ok_iff hQ hP hRc).2 (by rw [add_comm, hRg])]

/-- AddPoints answers INF on a checked point and its negative, and on no other point (R122). -/
theorem addPoints_eq_inf_iff {Q : Point} (hQ : onCurve Q = true) (R : Point) :
    addPoints Q R = .ok .inf ↔ R = negPoint Q := by
  obtain ⟨hneg, hgroup⟩ := negPoint_toGroup hQ
  constructor
  · intro h
    have hR := (onCurve_of_addPoints_ok h).2
    refine toGroup_injective hR hneg ?_
    rw [hgroup]
    exact (neg_eq_of_add_eq_zero_right ((addPoints_eq_ok_iff hQ hR rfl).1 h)).symm
  · rintro rfl
    exact (addPoints_eq_ok_iff hQ hneg rfl).2 (by rw [hgroup, add_neg_cancel, toGroup_inf])

end

/-- Settles O33: the slopes and the third point of the line are read off the branches of AddPoints. -/
theorem addPointsFollowsTheGroupLaw : Obligations.AddPointsFollowsTheGroupLaw := by
  have hf : Fact (Nat.Prime dpP) := ⟨dpP_prime⟩
  refine ⟨fun P Q h => addPoints_off h,
    fun Q hQ => ⟨addPoints_inf_left hQ, by rw [addPoints_comm hQ rfl, addPoints_inf_left hQ]⟩,
    fun xP yP xQ yQ hP hQ => ⟨?_, ?_, fun hopp => ?_⟩⟩
  · rintro rfl hsum
    rw [addPoints_fin hP hQ, addFinite_opposite hsum]
  · rintro rfl rfl rfl
    rw [addPoints_fin hP hQ, addFinite_opposite (Nat.zero_mod _)]
  · obtain ⟨lam, hlt, hadd, htangent, hchord⟩ := addPoints_line hP hQ hopp
    obtain ⟨xR, yR, hpoint, hxR, hyR, hx, hy⟩ := chordPoint_congruences lam xP yP xQ
    exact ⟨lam, xR, yR, hlt, hxR, hyR, by rw [hadd, hpoint], htangent, hchord, hx, hy⟩

/-- Settles O34: closure and commutativity are the group's; the denominators are nonzero on the curve. -/
theorem addPointsPropertiesOnTheCurve : Obligations.AddPointsPropertiesOnTheCurve := by
  have hf : Fact (Nat.Prime dpP) := ⟨dpP_prime⟩
  refine ⟨fun P Q hP hQ => ⟨?_, addPoints_comm hP hQ⟩, fun x y h => tangent_denominator_ne_zero h,
    fun xP yP xQ yQ hP hQ => chord_denominator_ne_zero hP hQ, fun P Q c => addPoints_error⟩
  obtain ⟨R, hR, hRc, -⟩ := addPoints_toGroup hP hQ
  refine ⟨R, hR, hRc, ?_⟩
  rintro x y rfl
  obtain ⟨hx, hy, -⟩ := (onCurve_fin x y).1 hRc
  exact ⟨hx, hy⟩

/-- Settles O54: the negative is the group's, so AddPoints answers INF on it alone. -/
theorem negationIsTheInversePoint : Obligations.NegationIsTheInversePoint := by
  have hf : Fact (Nat.Prime dpP) := ⟨dpP_prime⟩
  have hp : 0 < dpP := dpP_prime.pos
  refine ⟨rfl, fun x y => ⟨_, rfl, modInt_lt _ hp, modInt_cast _ hp⟩, fun Q hQ => ?_⟩
  exact ⟨(negPoint_toGroup hQ).1, (addPoints_eq_inf_iff hQ _).2 rfl, fun R => (addPoints_eq_inf_iff hQ R).1⟩

end Sys2Proof.Machine

/-! # Proofs: the scalar multiplier (spec/42_scalar_multiplier.md) -/

namespace Sys2Proof.Machine

section
variable [Fact (Nat.Prime dpP)]

/-- Mul answers R where the group's multiple is R (R141). -/
theorem mulPoint_eq_ok_iff {Q R : Point} (hQ : onCurve Q = true) (hR : onCurve R = true) (k : Nat) :
    mulPoint k Q = .ok R ↔ k • Q.toGroup = R.toGroup := by
  obtain ⟨T, hT, hTc, hTg⟩ := mulPoint_toGroup k hQ
  rw [hT, ← hTg, Except.ok.injEq]
  exact ⟨congrArg _, toGroup_injective hTc hR⟩

/-- One more addition of Q is the next multiple. -/
theorem addPoints_mulPoint {k : Nat} {Q R : Point} (hQ : onCurve Q = true) (hR : mulPoint k Q = .ok R) :
    addPoints R Q = mulPoint (k + 1) Q := by
  obtain ⟨hRc, hRg⟩ := mulPoint_ok hQ hR
  obtain ⟨T, hT, hTc, hTg⟩ := mulPoint_toGroup (k + 1) hQ
  rw [hT, addPoints_eq_ok_iff hRc hQ hTc, hRg, hTg, succ_nsmul]

/-- The double-and-add loop of R140 and the repeated addition of R141 answer the same. -/
theorem mulPoint_eq_repeatAdd {Q : Point} (hQ : onCurve Q = true) (k : Nat) : mulPoint k Q = repeatAdd k Q := by
  induction k with
  | zero => exact (mulPoint_eq_inf_iff hQ 0).2 (zero_nsmul _)
  | succ k ih =>
    obtain ⟨R, hR, -, -⟩ := mulPoint_toGroup k hQ
    rw [repeatAdd, ← ih, hR]
    exact (addPoints_mulPoint hQ hR).symm

/-- The multiple of n − k is the negative of the multiple of k, since they sum to the multiple of n (R141). -/
theorem mulPoint_sub_eq_negPoint {k : Nat} {Q R : Point} (hQ : onCurve Q = true) (hk : k ≤ dpN)
    (hR : mulPoint k Q = .ok R) : mulPoint (dpN - k) Q = .ok (negPoint R) := by
  obtain ⟨hRc, hRg⟩ := mulPoint_ok hQ hR
  obtain ⟨hneg, hnegg⟩ := negPoint_toGroup hRc
  have hsum : (dpN - k) • Q.toGroup + k • Q.toGroup = 0 := by
    rw [← add_nsmul, Nat.sub_add_cancel hk, order_nsmul]
  rw [mulPoint_eq_ok_iff hQ hneg, hnegg, hRg, eq_neg_of_add_eq_zero_left hsum]

end

/-- Settles O38: each property is that of the group's multiple; the order n is from `finite_point_hasOrderN`. -/
theorem mulProperties : Obligations.MulProperties := by
  have hf : Fact (Nat.Prime dpP) := ⟨dpP_prime⟩
  intro Q hQ
  refine ⟨fun k => ?_, (mulPoint_eq_inf_iff hQ 0).2 (zero_nsmul _), fun k => ?_,
    (mulPoint_eq_ok_iff hQ hQ 1).2 (one_nsmul _), mulPoint_eq_repeatAdd hQ,
    (mulPoint_eq_inf_iff hQ _).2 (order_nsmul _), multiples_reduce_mod_n hQ, fun k hfin hpos hle => ?_,
    fun k R hk => mulPoint_sub_eq_negPoint hQ hk⟩
  · obtain ⟨R, hR, hRc, -⟩ := mulPoint_toGroup k hQ
    exact ⟨R, hR, hRc⟩
  · exact (mulPoint_eq_inf_iff rfl k).2 (by rw [toGroup_inf, nsmul_zero])
  · have hn := one_lt_dpN
    exact (finite_point_hasOrderN hQ hfin).2 k hpos (by omega)

end Sys2Proof.Machine

/-! # Proofs: signing and verifying (spec/44_ecdsa_signer.md) -/

namespace Sys2Proof.Machine

/-! ### What a committed SIGN leaves (R162) -/

/-- A nonzero remainder mod n is a scalar in range. -/
theorem scalarInRange_of_mod_ne_zero {x : Nat} (h : x % dpN ≠ 0) : scalarInRange (x % dpN) = true := by
  have hlt : x % dpN < dpN := Nat.mod_lt x dpN_prime.pos
  rw [scalarInRange_iff]
  omega

/-- A remainder mod n goes through a register unchanged. -/
theorem toNat_ofNat_mod_dpN (x : Nat) : (BitVec.ofNat 256 (x % dpN)).toNat = x % dpN :=
  (fitsRegister_iff _).2 ((Nat.mod_lt x dpN_prime.pos).trans (dpN_lt_dpP.trans dpP_lt))

/-- A SIGN step that ends the command took a nonce k: RES0 is the x coordinate of k·G mod n, RES1 is
k⁻¹·(z + r·d) mod n, and both are in range. -/
theorem sign_committed {s t : State} {z d : Word256} (hseq : s.seq = .waitRng (.sign z d))
    (hexec : exec .sign s = .next t) (hidle : t.seq = .idle) :
    ∃ k x y i, mulPoint k baseG = .ok (.fin x y) ∧ invMod k dpN = .ok i ∧ t.res0.toNat = x % dpN ∧
      t.res1.toNat = i * ((z.toNat + t.res0.toNat * d.toNat) % dpN) % dpN ∧
      scalarInRange t.res0.toNat = true ∧ scalarInRange t.res1.toNat = true := by
  cases hw : s.rngIn with
  | none =>
    obtain rfl : s = t := Host.Outcome.next.inj ((exec_waiting hseq hw).symm.trans hexec)
    rw [hseq] at hidle
    cases hidle
  | some w =>
    obtain rfl := Host.Outcome.next.inj ((exec_delivered hseq hw).symm.trans hexec)
    rcases attemptSign_cases z d w with hwait | ⟨x, y, i, -, hP, -, hi, hr, hs, hok⟩
    · rw [attemptOf, hwait] at hidle
      cases hidle
    · simp only [attemptOf, hok, State.conclude, commit_res0, commit_res1, Option.getD_some, toNat_ofNat_mod_dpN]
      exact ⟨w.toNat, x, y, i, hP, hi, rfl, rfl, scalarInRange_of_mod_ne_zero hr, scalarInRange_of_mod_ne_zero hs⟩

/-! ### The verifier recovers the nonce (R164) -/

/-- Multiples on the curve depend on the scalar as an element of the field of n elements. -/
theorem nsmul_congr_zmod [Fact (Nat.Prime dpP)] {k j : Nat} (h : (k : ZMod dpN) = j) (A : secpCurve.Point) :
    k • A = j • A := by
  rw [← nsmul_mod k A, (ZMod.natCast_eq_natCast_iff' k j dpN).1 h, nsmul_mod]

/-- u1 + u2·d is the nonce: with m = z + r·d and s = k⁻¹·m not 0, s⁻¹·m = k. -/
theorem verify_scalars_eq_nonce {z d r k i s w : Nat} (hi : invMod k dpN = .ok i)
    (hs : s = i * ((z + r * d) % dpN) % dpN) (hsIn : scalarInRange s = true) (hw : invMod s dpN = .ok w) :
    ((w * z % dpN + w * r % dpN * d : Nat) : ZMod dpN) = k := by
  have hf : Fact (Nat.Prime dpN) := ⟨dpN_prime⟩
  have hsz : (s : ZMod dpN) = (k : ZMod dpN)⁻¹ * (z + r * d) := by
    rw [hs, ← invMod_zmod dpN_prime hi]
    simp
  have hne : (s : ZMod dpN) ≠ 0 := fun h =>
    scalarInRange_mod hsIn (Nat.mod_eq_zero_of_dvd ((ZMod.natCast_eq_zero_iff _ _).1 h))
  rw [hsz] at hne
  have hm : (z + r * d : ZMod dpN) ≠ 0 := right_ne_zero_of_mul hne
  calc ((w * z % dpN + w * r % dpN * d : Nat) : ZMod dpN)
      = (w : ZMod dpN) * (z + r * d) := by
        push_cast [ZMod.natCast_mod]
        ring
    _ = ((k : ZMod dpN)⁻¹ * (z + r * d))⁻¹ * (z + r * d) := by rw [invMod_zmod dpN_prime hw, hsz]
    _ = k := by rw [mul_inv, inv_inv, inv_mul_cancel_right₀ hm]

/-- On a signature made with the nonce k and the key d, the verifier's point for d·G is k·G. -/
theorem verifyPoint_of_signature {z d r k i s : Nat} {H P : Point} (hP : mulPoint k baseG = .ok P)
    (hH : mulPoint d baseG = .ok H) (hi : invMod k dpN = .ok i) (hs : s = i * ((z + r * d) % dpN) % dpN)
    (hsIn : scalarInRange s = true) : verifyPoint z r s H = .ok P := by
  have hf : Fact (Nat.Prime dpP) := ⟨dpP_prime⟩
  obtain ⟨hPc, hPg⟩ := mulPoint_ok onCurve_baseG hP
  obtain ⟨hHc, hHg⟩ := mulPoint_ok onCurve_baseG hH
  obtain ⟨w, U1, U2, W, hw, h1, h2, hW, h1c, h2c, hv⟩ := verifyPoint_spec z r hsIn hHc
  rw [hv, ← hW, addPoints_eq_ok_iff h1c h2c hPc, hPg, (mulPoint_ok onCurve_baseG h1).2, (mulPoint_ok hHc h2).2, hHg,
    ← mul_nsmul', ← add_nsmul]
  exact nsmul_congr_zmod (verify_scalars_eq_nonce hi hs hsIn hw) _

/-- The public key of a private key in range is a valid key for VERIFY (spec/43_key_pair_gen.md R153). -/
theorem signatureValid_of_key {d r s : Nat} {H : Point} (hd : scalarInRange d = true) (hH : mulPoint d baseG = .ok H)
    (hr : scalarInRange r = true) (hs : scalarInRange s = true) : signatureValid r s H = true := by
  obtain ⟨x, y, hxy, hc⟩ := mulPoint_baseG hd
  obtain rfl : Point.fin x y = H := Except.ok.inj (hxy.symm.trans hH)
  exact (signatureValid_iff _ _ _).2 ⟨Point.noConfusion, hc, (scalarInRange_iff r).1 hr, (scalarInRange_iff s).1 hs⟩

/-- VERIFY concludes with its begin step, whatever SEQ is. -/
theorem exec_verify (v : State) : exec .verify v = .next (v.conclude .verify (beginVerify v.snap)) := rfl

/-- VERIFY of a valid input commits the comparison of r with the x coordinate of the verifier's point
(spec/45_ecdsa_verifier.md R171). -/
theorem exec_verify_valid {v : State} {W : Point}
    (hvalid : signatureValid v.snap.opb.toNat v.snap.opc.toNat v.snap.p1 = true)
    (hW : verifyPoint v.snap.opa.toNat v.snap.opb.toNat v.snap.opc.toNat v.snap.p1 = .ok W) :
    exec .verify v = .next (v.commit { vok := some (verifyMatch v.snap.opb.toNat W) }) := by
  rw [exec_verify, beginVerify, if_pos hvalid, hW]
  rfl

/-- Settles O48: with s = k⁻¹·(z + r·d) the verifier's point is k·G, whose x coordinate gave r. -/
theorem signVerifyRoundTrip : Obligations.SignVerifyRoundTrip := by
  rintro s t v z d H hseq hd1 hdn hexec hidle hH rfl hopb hopc rfl
  obtain ⟨k, x, y, i, hP, hi, hr, hs, hrIn, hsIn⟩ := sign_committed hseq hexec hidle
  rw [← hopb] at hr hs hrIn
  rw [← hopc] at hs hsIn
  have hvalid := signatureValid_of_key ((scalarInRange_iff _).2 ⟨hd1, hdn⟩) hH hrIn hsIn
  refine ⟨_, exec_verify_valid hvalid (verifyPoint_of_signature hP hH hi hs hsIn), ?_⟩
  exact decide_eq_true hr

end Sys2Proof.Machine

/-! # Proofs: the verifier (spec/45_ecdsa_verifier.md) -/

namespace Sys2Proof.Machine

/-! ### What VERIFY commits (R171, R172) -/

/-- Everything VERIFY can do: it commits VOK = 0 on a malformed input, and otherwise the comparison of r with the
verifier's point, which Mul and AddPoints always answer. -/
theorem exec_verify_cases (v : State) :
    (signatureValid v.snap.opb.toNat v.snap.opc.toNat v.snap.p1 = false ∧
      exec .verify v = .next (v.commit { vok := some false })) ∨
    (signatureValid v.snap.opb.toNat v.snap.opc.toNat v.snap.p1 = true ∧
      ∃ W, verifyPoint v.snap.opa.toNat v.snap.opb.toNat v.snap.opc.toNat v.snap.p1 = .ok W ∧
        exec .verify v = .next (v.commit { vok := some (verifyMatch v.snap.opb.toNat W) })) := by
  cases hvalid : signatureValid v.snap.opb.toNat v.snap.opc.toNat v.snap.p1 with
  | false =>
    left
    refine ⟨rfl, ?_⟩
    rw [exec_verify, beginVerify, hvalid]
    rfl
  | true =>
    right
    obtain ⟨-, hcurve, -, hs⟩ := (signatureValid_iff _ _ _).1 hvalid
    obtain ⟨-, -, -, W, -, -, -, -, -, -, hW⟩ :=
      verifyPoint_spec v.snap.opa.toNat v.snap.opb.toNat ((scalarInRange_iff _).2 hs) hcurve
    exact ⟨rfl, W, hW, exec_verify_valid hvalid hW⟩

/-- The inputs R172 calls malformed are those that fail step 1 of the verifier. -/
theorem not_signatureValid_of_malformed {r s : Nat} {H : Point}
    (h : H = .inf ∨ onCurve H = false ∨ ¬(1 ≤ r ∧ r ≤ dpN - 1) ∨ ¬(1 ≤ s ∧ s ≤ dpN - 1)) :
    signatureValid r s H ≠ true := by
  intro hvalid
  obtain ⟨hfin, hcurve, hr, hs⟩ := (signatureValid_iff _ _ _).1 hvalid
  rcases h with hinf | hoff | hr' | hs'
  · exact hfin hinf
  · exact Bool.false_ne_true (hoff.symm.trans hcurve)
  · exact hr' hr
  · exact hs' hs

/-- Settles O47: both cases of VERIFY are commits of VOK alone, and a malformed input is in the first. -/
theorem verifyNeverFails : Obligations.VerifyNeverFails := by
  intro s
  rcases exec_verify_cases s with ⟨-, hexec⟩ | ⟨hvalid, W, -, hexec⟩
  · exact ⟨_, hexec, rfl, rfl, rfl, rfl, rfl, fun _ => rfl⟩
  · exact ⟨_, hexec, rfl, rfl, rfl, rfl, rfl, fun hbad => absurd hvalid (not_signatureValid_of_malformed hbad)⟩

/-! ### The negated signature (R173) -/

/-- Scalars that sum to 0 mod n give opposite multiples. -/
theorem nsmul_eq_neg_of_add_zmod [Fact (Nat.Prime dpP)] {k j : Nat} (h : (k : ZMod dpN) + j = 0)
    (A : secpCurve.Point) : k • A = -(j • A) := by
  refine eq_neg_of_add_eq_zero_left ?_
  rw [← add_nsmul, nsmul_congr_zmod (j := 0) (by exact_mod_cast h), zero_nsmul]

/-- Inv negates with its argument: the inverses of n − s and of s sum to 0 mod n. -/
theorem invMod_sub_add_invMod {s w w' : Nat} (hs : s ≤ dpN) (hw : invMod s dpN = .ok w)
    (hw' : invMod (dpN - s) dpN = .ok w') : (w' : ZMod dpN) + w = 0 := by
  have hf : Fact (Nat.Prime dpN) := ⟨dpN_prime⟩
  rw [invMod_zmod dpN_prime hw', invMod_zmod dpN_prime hw, Nat.cast_sub hs, ZMod.natCast_self, zero_sub, inv_neg,
    neg_add_cancel]

/-- u1 and u2 negate with w: their products with one scalar sum to 0 mod n. -/
theorem mul_mod_add_mul_mod {w w' : Nat} (h : (w' : ZMod dpN) + w = 0) (a : Nat) :
    ((w' * a % dpN : Nat) : ZMod dpN) + (w * a % dpN : Nat) = 0 := by
  rw [ZMod.natCast_mod, ZMod.natCast_mod, Nat.cast_mul, Nat.cast_mul, ← add_mul, h, zero_mul]

/-- The range [1, n − 1] is symmetric. -/
theorem scalarInRange_sub {s : Nat} (h : scalarInRange s = true) : scalarInRange (dpN - s) = true := by
  have hn := one_lt_dpN
  rw [scalarInRange_iff] at h ⊢
  omega

/-- The verifier's point in the group: W = u1·G + u2·H (R171). -/
theorem verifyPoint_toGroup [Fact (Nat.Prime dpP)] (z r : Nat) {s : Nat} {H : Point} (hs : scalarInRange s = true)
    (hH : onCurve H = true) : ∃ w W, invMod s dpN = .ok w ∧ verifyPoint z r s H = .ok W ∧ onCurve W = true ∧
      W.toGroup = (w * z % dpN) • baseG.toGroup + (w * r % dpN) • H.toGroup := by
  obtain ⟨w, U1, U2, W, hw, h1, h2, hadd, h1c, h2c, hW⟩ := verifyPoint_spec z r hs hH
  obtain ⟨W', hadd', hWc, hWg⟩ := addPoints_toGroup h1c h2c
  obtain rfl : W' = W := Except.ok.inj (hadd'.symm.trans hadd)
  rw [(mulPoint_ok onCurve_baseG h1).2, (mulPoint_ok hH h2).2] at hWg
  exact ⟨w, W', hw, hW, hWc, hWg⟩

/-- The verifier's point for n − s is the negative of its point for s. -/
theorem verifyPoint_sub {z r s : Nat} {H W : Point} (hs : scalarInRange s = true) (hH : onCurve H = true)
    (hW : verifyPoint z r s H = .ok W) : verifyPoint z r (dpN - s) H = .ok (negPoint W) := by
  have hf : Fact (Nat.Prime dpP) := ⟨dpP_prime⟩
  obtain ⟨w, T, hw, hT, hTc, hTg⟩ := verifyPoint_toGroup z r hs hH
  obtain ⟨w', W', hw', hW', hWc', hWg'⟩ := verifyPoint_toGroup z r (scalarInRange_sub hs) hH
  obtain rfl : T = W := Except.ok.inj (hT.symm.trans hW)
  obtain ⟨hneg, hnegg⟩ := negPoint_toGroup hTc
  have hle : s ≤ dpN := ((scalarInRange_iff s).1 hs).2.trans (Nat.sub_le _ _)
  have hopp (a : Nat) := nsmul_eq_neg_of_add_zmod (mul_mod_add_mul_mod (invMod_sub_add_invMod hle hw hw') a)
  rw [hW', toGroup_injective hWc' hneg (by rw [hWg', hnegg, hTg, hopp z, hopp r, neg_add])]

/-- A point and its negative have the same x coordinate (spec/41_point_ops.md R122). -/
theorem verifyMatch_negPoint (r : Nat) (W : Point) : verifyMatch r (negPoint W) = verifyMatch r W := by
  cases W <;> rfl

/-- Step 1 of the verifier does not tell s from n − s. -/
theorem signatureValid_sub {r s : Nat} {H : Point} (h : signatureValid r s H = true) :
    signatureValid r (dpN - s) H = true := by
  obtain ⟨hfin, hcurve, hr, hs⟩ := (signatureValid_iff _ _ _).1 h
  exact (signatureValid_iff _ _ _).2
    ⟨hfin, hcurve, hr, (scalarInRange_iff _).1 (scalarInRange_sub ((scalarInRange_iff s).2 hs))⟩

/-- n − s goes through a register unchanged. -/
theorem toNat_ofNat_dpN_sub (s : Nat) : (BitVec.ofNat 256 (dpN - s)).toNat = dpN - s :=
  (fitsRegister_iff _).2 ((Nat.sub_le dpN s).trans_lt (dpN_lt_dpP.trans dpP_lt))

/-- Settles O49: the verifier's point for n − s is the negative, whose x coordinate is the same. -/
theorem negatedSignatureVerifiesToo : Obligations.NegatedSignatureVerifiesToo := by
  intro v t v' hexec hvok hsnap
  rcases exec_verify_cases v with ⟨-, hbad⟩ | ⟨hvalid, W, hW, hgood⟩
  · obtain rfl := Host.Outcome.next.inj (hbad.symm.trans hexec)
    exact absurd hvok Bool.false_ne_true
  · obtain rfl := Host.Outcome.next.inj (hgood.symm.trans hexec)
    obtain ⟨-, hcurve, -, hs⟩ := (signatureValid_iff _ _ _).1 hvalid
    have hvalid' : signatureValid v'.snap.opb.toNat v'.snap.opc.toNat v'.snap.p1 = true := by
      simpa only [hsnap, toNat_ofNat_dpN_sub] using signatureValid_sub hvalid
    have hW' : verifyPoint v'.snap.opa.toNat v'.snap.opb.toNat v'.snap.opc.toNat v'.snap.p1 = .ok (negPoint W) := by
      simpa only [hsnap, toNat_ofNat_dpN_sub] using verifyPoint_sub ((scalarInRange_iff _).2 hs) hcurve hW
    refine ⟨_, exec_verify_valid hvalid' hW', ?_⟩
    simpa only [commit_status, Option.getD_some, verifyMatch_negPoint, hsnap] using hvok

end Sys2Proof.Machine

/-! # Proofs: decoding and encoding (spec/30_encoding.md) -/

namespace Sys2Proof.Machine

/-- The fields of every command pass the checks of R85. -/
theorem instr_wf (i : Instr) : i.wf = true := by cases i <;> rfl

/-- The table's numbering of 32 bits is the decoder of the word (R81). -/
theorem decodeTableWord_toNat {v : Word32} {i : Instr} (h : decode v = .instr i) :
    decodeTableWord 32 v.toNat = some i := by
  rw [decodeTableWord, Nat.mod_eq_of_lt v.isLt, if_pos v.isLt, BitVec.ofNat_toNat, BitVec.setWidth_eq, h]

/-- Settles O6: a command's word decodes to it, and the fields of a word that decodes are its command's. -/
theorem decodeEncodeAgree : Obligations.DecodeEncodeAgree :=
  ⟨fun i => ⟨instr_wf i, decode_encode i, decodeTableWord_toNat (decode_encode i)⟩,
    fun _ _ => encode_of_decode, fun _ _ => ofOp_of_decode⟩

/-- Settles O7: the words are evaluated by the decoder. -/
theorem commandWordsOfTheMap : Obligations.CommandWordsOfTheMap := by
  unfold Obligations.CommandWordsOfTheMap
  decide

end Sys2Proof.Machine

/-! # Proofs: what a command's step writes (spec/10_state.md R44 to R47) -/

namespace Sys2Proof.Machine

/-! ### The results of the opcode table's commands -/

/-- A result names outputs of its command's OutRegs, VOK for VERIFY alone (spec/30_encoding.md R82), and raises an
error of its command (spec/60_exceptions.md R200). -/
def Result.Listed (i : Instr) : Result → Prop
  | .ok o => (o.res0 ≠ none → .res0 ∈ i.outRegs) ∧ (o.res1 ≠ none → .res1 ∈ i.outRegs) ∧
      (o.point ≠ none → .rx ∈ i.outRegs ∧ .ry ∈ i.outRegs ∧ .rinf ∈ i.outRegs) ∧ (o.vok ≠ none → i = .verify)
  | .raise c => mayRaise i c.code = true
  | .needRng _ => True

/-- The results of begin steps are listed. -/
theorem beginOf_listed (i : Instr) (sn : Snapshot) : (beginOf i sn).Listed i := by
  cases h : beginOf i sn with
  | ok o =>
    obtain ⟨hres0, hres1, hrx, hry, hrinf, hvok⟩ := beginOf_ok h
    exact ⟨hres0.1, hres1.1, fun hp => ⟨hrx.1 hp, hry.1 hp, hrinf.1 hp⟩, hvok.1⟩
  | raise c => rcases beginOf_raise h with ⟨rfl | rfl | rfl, rfl⟩ | ⟨rfl | rfl, rfl⟩ | ⟨rfl | rfl, rfl⟩ <;> rfl
  | needRng w => trivial

/-- The results of attempts are listed. -/
theorem attemptOf_listed (w : Waiting) (x : Word256) : (attemptOf w x).Listed w.instr := by
  rcases attemptOf_cases w x with h | ⟨o, h, hvok, hres0, hres1, hpoint⟩ <;> rw [h]
  · trivial
  · exact ⟨hres0, hres1, hpoint, fun hne => absurd hvok hne⟩

/-- Everything a command's step can do: nothing, or it concludes a listed result, with the word on the port consumed
or not. -/
theorem exec_concludes {i : Instr} {s t : State} (h : exec i s = .next t) :
    t = s ∨ ∃ (x : Option Word256) (r : Result), r.Listed i ∧ t = ({ s with rngIn := x } : State).conclude i r := by
  rcases exec_cases i s with he | ⟨w, -, rfl, ⟨-, he⟩ | ⟨x, -, he⟩⟩ <;>
    obtain rfl := Host.Outcome.next.inj (he.symm.trans h)
  · exact .inr ⟨s.rngIn, _, beginOf_listed i s.snap, rfl⟩
  · exact .inl rfl
  · exact .inr ⟨none, _, attemptOf_listed w x, rfl⟩

/-! ### The frame (R21, R34) -/

/-- An output that is not named keeps its register. -/
theorem getD_eq_of_not_named {α : Type} {p : Prop} {o : Option α} (h : o ≠ none → p) (hp : ¬ p) (a : α) :
    o.getD a = a := by
  rw [not_not.1 (mt h hp), Option.getD_none]

/-- Concluding a listed result keeps the output registers outside OutRegs, and VOK but for VERIFY. -/
theorem conclude_frame (s : State) {i : Instr} {r : Result} (hr : r.Listed i) :
    (.res0 ∉ i.outRegs → (s.conclude i r).res0 = s.res0) ∧ (.res1 ∉ i.outRegs → (s.conclude i r).res1 = s.res1) ∧
    (.rx ∉ i.outRegs → (s.conclude i r).rx = s.rx) ∧ (.ry ∉ i.outRegs → (s.conclude i r).ry = s.ry) ∧
    (.rinf ∉ i.outRegs → (s.conclude i r).rinf = s.rinf) ∧
    (i ≠ .verify → (s.conclude i r).status.vok = s.status.vok) := by
  cases r with
  | ok o =>
    obtain ⟨hres0, hres1, hpoint, hvok⟩ := hr
    have hmap {α : Type} {f : Point → α} (h : o.point.map f ≠ none) := hpoint (mt Option.map_eq_none_iff.2 h)
    exact ⟨fun h => getD_eq_of_not_named hres0 h _, fun h => getD_eq_of_not_named hres1 h _,
      fun h => getD_eq_of_not_named (fun hp => (hmap hp).1) h _,
      fun h => getD_eq_of_not_named (fun hp => (hmap hp).2.1) h _,
      fun h => getD_eq_of_not_named (fun hp => (hmap hp).2.2) h _, fun h => getD_eq_of_not_named hvok h _⟩
  | raise c =>
    exact ⟨drawRegs_res0 s _, drawRegs_res1 s _, drawRegs_rx s _, drawRegs_ry s _, drawRegs_rinf s _, fun _ => rfl⟩
  | needRng w => exact ⟨fun _ => rfl, fun _ => rfl, fun _ => rfl, fun _ => rfl, fun _ => rfl, fun _ => rfl⟩

/-- Settles O16: no result writes an input, PFLAGS, CTRL, CMD_LAST or OVR, and a listed one keeps the rest. -/
theorem commandsWriteOnlyTheirOutRegs : Obligations.CommandsWriteOnlyTheirOutRegs := by
  intro i s t hexec
  rcases exec_concludes hexec with rfl | ⟨x, r, hr, rfl⟩
  · simp
  · obtain ⟨hres0, hres1, hrx, hry, hrinf, hvok⟩ := conclude_frame { s with rngIn := x } hr
    exact ⟨by simp, by simp, hres0, hres1, hrx, hry, hrinf, hvok, by simp⟩

/-- Settles O20: only a raised error sets ERR, and it is one of the command's. -/
theorem onlyTheListedErrorsAreRaised : Obligations.OnlyTheListedErrorsAreRaised := by
  intro i s t hexec herr herr'
  rcases exec_concludes hexec with rfl | ⟨x, r, hr, rfl⟩
  · exact absurd (herr.symm.trans herr') Bool.false_ne_true
  · cases r with
    | raise c => exact hr
    | ok o => exact absurd (herr.symm.trans herr') Bool.false_ne_true
    | needRng w => exact absurd (herr.symm.trans herr') Bool.false_ne_true

/-! ### A begin step is a function of the snapshot (R44) -/

/-- An output that is named does not depend on the register it goes to. -/
theorem getD_congr {α : Type} {o : Option α} (h : o ≠ none) (a b : α) : o.getD a = o.getD b := by
  obtain ⟨x, rfl⟩ := Option.ne_none_iff_exists'.1 h
  rfl

/-- VOK is an output of VERIFY alone (spec/30_encoding.md R82). -/
theorem vok_mem_outRegs {i : Instr} (h : .vok ∈ i.outRegs) : i = .verify := by
  cases i <;> simp [Instr.outRegs] at h ⊢

/-- Settles O14: both states conclude one result, and a commit names all of the command's outputs. -/
theorem beginStepReadsSnapOnly : Obligations.BeginStepReadsSnapOnly := by
  intro i s s' t t' hsnap hrun hrun' hexec hexec'
  obtain rfl := Host.Outcome.next.inj ((exec_run hrun).symm.trans hexec)
  obtain rfl := Host.Outcome.next.inj ((exec_run hrun').symm.trans hexec')
  rw [← hsnap]
  cases hr : beginOf i s.snap with
  | ok o =>
    obtain ⟨hres0, -, hrx, hry, hrinf, hvok⟩ := beginOf_ok hr
    have hmap {α : Type} {f : Point → α} (h : o.point ≠ none) : o.point.map f ≠ none := mt Option.map_eq_none_iff.1 h
    refine ⟨rfl, fun _ herr herr' => ⟨herr.trans herr'.symm, fun h => ?_, fun _ =>
      ⟨fun h => getD_congr (hres0.2 h) _ _, fun h => getD_congr (hmap (hrx.2 h)) _ _,
        fun h => getD_congr (hmap (hry.2 h)) _ _, fun h => getD_congr (hmap (hrinf.2 h)) _ _,
        fun h => getD_congr (hvok.2 (vok_mem_outRegs h)) _ _⟩⟩⟩
    exact absurd (herr.symm.trans h) Bool.false_ne_true
  | raise c => exact ⟨rfl, fun _ _ _ => ⟨rfl, fun _ => rfl, fun h => absurd h (by simp [State.conclude])⟩⟩
  | needRng w => exact ⟨rfl, fun h => by cases h⟩

end Sys2Proof.Machine

/-! # Proofs: steps of the block (spec/10_state.md, spec/70_reset_and_hazards.md) -/

namespace Sys2Proof.Machine

/-! ### The invariant (R31) -/

/-- Settles O17: the idle reset state has every flag clear. -/
theorem resetMeetsTheInvariant : Obligations.ResetMeetsTheInvariant := reset_inv

/-- Settles O18: `step_inv`, over the events and the results of a command's step. -/
theorem everyStepKeepsTheInvariant : Obligations.EveryStepKeepsTheInvariant := fun _ _ => step_inv

/-! ### Every step answers (spec/60_exceptions.md R203, R208) -/

/-- A delivered word always gets a next state. -/
theorem deliverWord_next (w : Word256) (s : State) : ∃ t, deliverWord w s = .next t := by
  unfold deliverWord
  split
  · exact sequencerTurn_next _
  · exact ⟨s, rfl⟩

/-- Every event gets a next state. -/
theorem handleEvent_next (e : Event) (s : State) : ∃ t, handleEvent e s = .next t := by
  cases e with
  | read off width => exact ⟨_, rfl⟩
  | write off width v => exact ⟨_, rfl⟩
  | deliver w => exact deliverWord_next w s
  | tick => exact sequencerTurn_next s
  | reset => exact ⟨_, rfl⟩

/-- Settles O12: with no event the sequencer answers, and otherwise the event does. -/
theorem everyStepAnswersNext : Obligations.EveryStepAnswersNext := by
  intro s
  cases hp : s.pending with
  | nil => exact step_nil hp ▸ sequencerTurn_next s
  | cons e rest => exact step_cons hp ▸ handleEvent_next e _

/-! ### Reset (spec/70_reset_and_hazards.md R230) and the ROM -/

/-- Settles O2: the reset event keeps the coming events and the counter only, and the ROM is no state. -/
theorem resetEventAbandonsTheCommand : Obligations.ResetEventAbandonsTheCommand := by
  intro s rest hp
  refine ⟨_, step_reset hp, rfl, rfl, rfl, rfl, rfl, rfl, rfl, fun s' hp' hdraws => ?_, rfl, fun r hr i => ?_⟩
  · rw [step_reset hp', State.resetEvent, State.resetEvent, hdraws]
  · exact congrArg (getWord · i) (wide_rom _ s hr)

/-- Settles O3: a ROM read is a word of a constant, and the words are evaluated. -/
theorem romReadsTheDomainParameters : Obligations.RomReadsTheDomainParameters := by
  intro s
  simp only [State.readReg, State.wide]
  decide +kernel

/-! ### Only an accept or a reset writes CMD_LAST (R29) -/

/-- A command's step leaves CMD_LAST. -/
theorem exec_cmdLast {i : Instr} {s t : State} (h : exec i s = .next t) : t.cmdLast = s.cmdLast := by
  obtain ⟨-, ⟨-, -, -, hcmd, -⟩, -⟩ := commandsWriteOnlyTheirOutRegs i s t h
  exact hcmd

/-- So does the sequencer's turn. -/
theorem sequencerTurn_cmdLast {s t : State} (h : sequencerTurn s = .next t) : t.cmdLast = s.cmdLast := by
  unfold sequencerTurn at h
  split at h
  · obtain rfl := Host.Outcome.next.inj h
    rfl
  · exact exec_cmdLast h

/-- A delivered word leaves it too. -/
theorem deliverWord_cmdLast {w : Word256} {s t : State} (h : deliverWord w s = .next t) : t.cmdLast = s.cmdLast := by
  unfold deliverWord at h
  split at h
  · exact sequencerTurn_cmdLast (s := { s with rngIn := some w }) h
  · obtain rfl := Host.Outcome.next.inj h
    rfl

/-- The accept records the word, legal or not (R42). -/
theorem accept_cmdLast (s : State) (v : Word32) : (s.accept v).cmdLast = v := by
  cases hd : decode v with
  | instr i => rw [accept_legal hd]
  | illegal why => rw [accept_illegal hd]

/-- A write to a register other than CMD leaves CMD_LAST (spec/20_memory.md R64). -/
theorem writeReg_cmdLast {s : State} {r : RegSel} (v : Word32) (hr : r ≠ .cmd) :
    (s.writeReg r v).cmdLast = s.cmdLast := by
  cases r with
  | cmd => exact absurd rfl hr
  | word q i => exact setInput_cmdLast ..
  | _ => rfl

/-- CMD is at offset 0x008 alone (spec/20_memory.md R61). -/
theorem eq_of_regAt_cmd {off : Offset} (h : regAt off.toNat = some .cmd) : off = 0x008 := by
  rcases regAt_eq_some h with hnarrow | ⟨_, _, _, _, _, hword⟩
  · exact BitVec.eq_of_toNat_eq (by simpa [narrowMap] using hnarrow)
  · cases hword

/-- A bus write that does not reach CMD leaves CMD_LAST. -/
theorem busWrite_cmdLast {s : State} {off : Offset} {width : Nat} (v : Word32)
    (h : accessed off width ≠ some .cmd) : (s.busWrite off width v).cmdLast = s.cmdLast := by
  unfold State.busWrite
  split
  · rfl
  · next r hacc =>
    split
    · rfl
    · exact writeReg_cmdLast v fun hr => h (hr ▸ hacc)

/-- A bus write that changes CMD_LAST is the accept of its word. -/
theorem busWrite_cmdLast_ne {s : State} {off : Offset} {width : Nat} {v : Word32}
    (h : (s.busWrite off width v).cmdLast ≠ s.cmdLast) :
    off = 0x008 ∧ width = 32 ∧ s.status.busy = false ∧ (s.busWrite off width v).cmdLast = v := by
  obtain ⟨rfl, hreg⟩ := accessed_eq_some.1 (not_not.1 (mt (busWrite_cmdLast v) h))
  rw [busWrite_mapped hreg rfl, respond_cmdLast, State.writeReg] at h ⊢
  cases hb : s.status.busy with
  | true => exact absurd (by rw [cmdWrite_busy v hb, drop_cmdLast]) h
  | false => exact ⟨eq_of_regAt_cmd hreg, rfl, rfl, by rw [cmdWrite_idle v hb, accept_cmdLast]⟩

/-- Settles O13: by the next event; a bus write that changes CMD_LAST is an accept. -/
theorem onlyAnAcceptChangesCmdLast : Obligations.OnlyAnAcceptChangesCmdLast := by
  refine ⟨fun s => rfl, rfl, fun s t hstep hne => ?_⟩
  cases hp : s.pending with
  | nil => exact absurd (sequencerTurn_cmdLast (step_nil hp ▸ hstep)) hne
  | cons e rest =>
    rw [step_cons hp] at hstep
    cases e with
    | read off width =>
      obtain rfl := Host.Outcome.next.inj hstep
      exact absurd rfl hne
    | write off width v =>
      obtain rfl := Host.Outcome.next.inj hstep
      obtain ⟨rfl, rfl, hidle, hword⟩ := busWrite_cmdLast_ne hne
      exact .inl ⟨v, rest, rfl, hidle, hword⟩
    | deliver w => exact absurd (deliverWord_cmdLast hstep) hne
    | tick => exact absurd (sequencerTurn_cmdLast hstep) hne
    | reset =>
      obtain rfl := Host.Outcome.next.inj hstep
      exact .inr ⟨rest, rfl, rfl⟩

/-! ### A step of the sequencer runs the decoded command (R42, R44, R45) -/

/-- With no event to come the running command takes its step. -/
theorem step_current {s : State} {i : Instr} (hi : s.current = some i) (hp : s.pending = []) : step s = exec i s := by
  rw [step_nil hp, sequencerTurn_current hi]

/-- The coming events and the word on the port do not say which command runs. -/
theorem current_port (s : State) (rest : List Event) (x : Option Word256) :
    ({ s with pending := rest, rngIn := x } : State).current = s.current := rfl

/-- The running command takes its step at a tick. -/
theorem step_tick_current {s : State} {i : Instr} {rest : List Event} (hi : s.current = some i)
    (hp : s.pending = .tick :: rest) : step s = exec i { s with pending := rest } := by
  rw [step_tick hp, sequencerTurn_current ((current_port s rest s.rngIn).trans hi)]

/-- A word delivered while it is requested is on the port at the running command's step (spec/60_exceptions.md R213). -/
theorem step_deliver_current {s : State} {i : Instr} {w : Word256} {rest : List Event} (hi : s.current = some i)
    (hreq : s.rngReq = true) (hp : s.pending = .deliver w :: rest) :
    step s = exec i { s with pending := rest, rngIn := some w } := by
  have hreq' : ({ s with pending := rest } : State).rngReq = true := hreq
  rw [step_cons hp, handleEvent, deliverWord, if_pos hreq',
    sequencerTurn_current ((current_port s rest (some w)).trans hi)]

/-- After the accept of a legal word its command runs (R42). -/
theorem accept_current {v : Word32} {i : Instr} (s : State) (h : decode v = .instr i) :
    (s.accept v).current = some i := by
  rw [accept_legal h]
  exact (current_run rfl).trans (congrArg some (ofOp_of_decode h))

/-- The accept takes no event. -/
theorem accept_pending (s : State) (v : Word32) : (s.accept v).pending = s.pending := by
  cases hd : decode v with
  | instr i => rw [accept_legal hd]
  | illegal why => rw [accept_illegal hd]

/-- With no event to come the sequencer moves next as it is. -/
theorem sequencerNext_nil {s : State} (h : s.pending = []) : s.sequencerNext = s := by
  rw [State.sequencerNext, h]

/-- withCommand of a legal word is its accept by an idle block: the command runs, with no event before it. -/
theorem withCommand_legal {s : State} {v : Word32} {i : Instr} (h : decode v = .instr i) (hp : s.pending = []) :
    (s.withCommand v).current = some i ∧ (s.withCommand v).pending = [] := by
  have hnil (status : Status) : (({ s with status := status, seq := .idle } : State).accept v).pending = [] :=
    (accept_pending _ v).trans hp
  simp only [State.withCommand, h, sequencerNext_nil (hnil _)]
  exact ⟨accept_current _ h, hnil _⟩

/-- withFetchWord on a command's word is withCommand of the word. -/
theorem withFetchWord_encode (s : State) (i : Instr) :
    s.withFetchWord 32 (encode i).toNat = s.withCommand (encode i) := by
  rw [State.withFetchWord, Nat.mod_eq_of_lt (encode i).isLt, BitVec.ofNat_toNat, BitVec.setWidth_eq]

/-- Settles O11: each way to the sequencer's turn leaves the running command as it was, or is the accept of its word. -/
theorem stepRunsTheDecodedCommand : Obligations.StepRunsTheDecodedCommand := by
  intro s i
  refine ⟨step_current, fun rest hi hp => step_tick_current hi hp,
    fun w rest hi hreq hp => step_deliver_current hi hreq hp, fun v hv hidle hp => ?_, fun hp => ?_⟩
  · have hcur : ((({ s with pending := [] } : State).accept v).respond (.write .okay)).current = some i :=
      accept_current _ hv
    exact ⟨_, step_cmd_idle hp hidle, hcur, step_current hcur (accept_pending _ v)⟩
  · obtain ⟨hcur, hnil⟩ := withCommand_legal (decode_encode i) hp
    rw [withFetchWord_encode]
    exact step_current hcur hnil

end Sys2Proof.Machine

/-! # Proofs: input writes while a command runs (spec/10_state.md R24, R50) -/

namespace Sys2Proof.Machine

/-! ### The host's side of the state -/

/-- `s` with what host writes of inputs, PFLAGS and CTRL set, and the environment, taken from `u`. -/
def State.withHost (s u : State) : State :=
  { s with
    opa := u.opa, opb := u.opb, opc := u.opc, p1x := u.p1x, p1y := u.p1y, p2x := u.p2x, p2y := u.p2y
    p1inf := u.p1inf, p2inf := u.p2inf, ie := u.ie, pending := u.pending, resp := u.resp }

/-- Drawing registers reads and writes nothing of the host's side. -/
theorem drawRegs_withHost (s u : State) (rs : List OutReg) :
    (s.withHost u).drawRegs rs = (s.drawRegs rs).withHost u := by
  induction rs generalizing s with
  | nil => rfl
  | cons r rs ih =>
    have hr : (s.withHost u).drawReg r = (s.drawReg r).withHost u := by cases r <;> rfl
    rw [State.drawRegs, State.drawRegs, hr, ih]

/-- No result reads or writes the host's side. -/
theorem conclude_withHost (s u : State) (i : Instr) (r : Result) :
    (s.withHost u).conclude i r = (s.conclude i r).withHost u := by
  cases r with
  | ok o => rfl
  | raise c => simp only [State.conclude, State.fail, drawRegs_withHost]; rfl
  | needRng w => rfl

/-- Nor does the running command's step: it reads SEQ, SNAP and the port. -/
theorem exec_withHost {s t : State} {i : Instr} (u : State) (hi : s.current = some i) (h : exec i s = .next t) :
    exec i (s.withHost u) = .next (t.withHost u) := by
  rcases current_eq_some hi with ⟨op, hrun, -⟩ | ⟨w, hw, rfl⟩
  · have hrun' : (s.withHost u).seq = .run op := hrun
    obtain rfl := Host.Outcome.next.inj ((exec_run hrun).symm.trans h)
    rw [exec_run hrun', ← conclude_withHost]
    rfl
  · have hw' : (s.withHost u).seq = .waitRng w := hw
    cases hx : s.rngIn with
    | none =>
      obtain rfl := Host.Outcome.next.inj ((exec_waiting hw hx).symm.trans h)
      exact exec_waiting hw' hx
    | some x =>
      have hx' : (s.withHost u).rngIn = some x := hx
      obtain rfl := Host.Outcome.next.inj ((exec_delivered hw hx).symm.trans h)
      rw [exec_delivered hw' hx', ← conclude_withHost]
      rfl

/-- An input write reaches neither CMD nor STATUS (spec/20_memory.md R61). -/
theorem regAt_of_isInputWrite {off : Offset} {r : RegSel} (h : IsInputWrite off) (hreg : regAt off.toNat = some r) :
    r ≠ .cmd ∧ r ≠ .status := by
  unfold IsInputWrite at h
  rcases regAt_eq_some hreg with hnarrow | ⟨row, -, i, -, -, rfl⟩
  · generalize off.toNat = n at hnarrow h
    fin_cases hnarrow <;> simp at h ⊢
  · exact ⟨nofun, nofun⟩

/-- A write to a register other than CMD and STATUS reads and writes the host's side alone. -/
theorem writeReg_withHost (s u : State) {r : RegSel} (v : Word32) (hcmd : r ≠ .cmd) (hstatus : r ≠ .status) :
    (s.withHost u).writeReg r v = s.withHost (u.writeReg r v) := by
  cases r with
  | cmd => exact absurd rfl hcmd
  | status => exact absurd rfl hstatus
  | word q i => cases q <;> rfl
  | _ => rfl

/-- So does an input write. -/
theorem busWrite_withHost (s u : State) {off : Offset} (v : Word32) (h : IsInputWrite off) :
    (s.withHost u).busWrite off 32 v = s.withHost (u.busWrite off 32 v) := by
  unfold State.busWrite
  split
  · rfl
  · next r hacc =>
    obtain ⟨hcmd, hstatus⟩ := regAt_of_isInputWrite h (accessed_eq_some.1 hacc).2
    split
    · rfl
    · rw [writeReg_withHost s u v hcmd hstatus]
      rfl

/-- The coming events play no part in a write. -/
theorem writeReg_pending (s : State) (rest : List Event) (r : RegSel) (v : Word32) :
    ({ s with pending := rest } : State).writeReg r v = { s.writeReg r v with pending := rest } := by
  cases r with
  | cmd =>
    simp only [State.writeReg, State.cmdWrite, State.accept]
    split
    · rfl
    · split <;> rfl
  | word q i => cases q <;> rfl
  | _ => rfl

/-- So a bus write keeps them aside. -/
theorem busWrite_pending (s : State) (rest : List Event) (off : Offset) (width : Nat) (v : Word32) :
    ({ s with pending := rest } : State).busWrite off width v = { s.busWrite off width v with pending := rest } := by
  unfold State.busWrite
  split
  · rfl
  · split
    · rfl
    · rw [writeReg_pending]
      rfl

/-! ### Both orders -/

/-- A run of two steps. -/
theorem run_two {s t u : State} (h : step s = .next t) (h' : step t = .next u) :
    Host.Core.run Sys2Proof.core 2 s = .next u :=
  (run_next 1 h).trans ((run_next 0 h').trans (run_zero u))

/-- A pending bus write, the events after it kept aside. -/
theorem step_pending_write (s : State) (off : Offset) (width : Nat) (v : Word32) (rest : List Event) :
    step { s with pending := .write off width v :: rest } = .next { s.busWrite off width v with pending := rest } := by
  rw [← busWrite_pending]
  exact step_write rfl

/-- A pending tick of the running command. -/
theorem step_pending_tick {s : State} {i : Instr} (hi : s.current = some i) (rest : List Event) :
    step { s with pending := .tick :: rest } = exec i { s with pending := rest } :=
  step_tick_current (s := { s with pending := .tick :: rest }) hi rfl

/-- An input write, then the sequencer's turn. -/
theorem run_write_tick {s t : State} {i : Instr} {off : Offset} (v : Word32) (hoff : IsInputWrite off)
    (hi : s.current = some i) (h : exec i s = .next t) :
    Host.Core.run Sys2Proof.core 2 { s with pending := [.write off 32 v, .tick] } =
      .next (t.withHost { s.busWrite off 32 v with pending := [] }) := by
  have hhost (rest : List Event) : ({ s.busWrite off 32 v with pending := rest } : State) =
      s.withHost { s.busWrite off 32 v with pending := rest } :=
    congrArg (fun u : State => { u with pending := rest }) (busWrite_withHost s s v hoff)
  have hturn : step { s.busWrite off 32 v with pending := [.tick] } =
      .next (t.withHost { s.busWrite off 32 v with pending := [] }) := by
    rw [hhost, ← exec_withHost { s.busWrite off 32 v with pending := [] } hi h]
    exact step_pending_tick (s := s.withHost (s.busWrite off 32 v)) hi []
  exact run_two (step_pending_write s off 32 v [.tick]) hturn

/-- The sequencer's turn, then the input write. -/
theorem run_tick_write {s t : State} {i : Instr} {off : Offset} (v : Word32) (hoff : IsInputWrite off)
    (hi : s.current = some i) (h : exec i s = .next t) :
    Host.Core.run Sys2Proof.core 2 { s with pending := [.tick, .write off 32 v] } =
      .next (t.withHost { s.busWrite off 32 v with pending := [] }) := by
  have hturn := exec_withHost { s with pending := [.write off 32 v] } hi h
  have hwrite := step_pending_write (t.withHost s) off 32 v []
  rw [busWrite_withHost t s v hoff] at hwrite
  exact run_two ((step_pending_tick hi [.write off 32 v]).trans hturn) hwrite

/-- Settles O15: both orders give the command's next state with the host's side of the write. -/
theorem inputWritesDoNotDisturbARunningCommand : Obligations.InputWritesDoNotDisturbARunningCommand := by
  intro s i off v hoff hi
  obtain ⟨t, ht⟩ := exec_next i s
  exact (run_write_tick v hoff hi ht).trans (run_tick_write v hoff hi ht).symm

end Sys2Proof.Machine

/-! # Proofs: writes of the register window (spec/20_memory.md) -/

namespace Sys2Proof.Machine

/-! ### What a mapped write does (R64) -/

/-- A write to a mapped, writable register. -/
theorem step_write_mapped {s : State} {off : Offset} {v : Word32} {rest : List Event} {r : RegSel}
    (hp : s.pending = .write off 32 v :: rest) (hreg : regAt off.toNat = some r) (hr : readOnlyReg r = false) :
    step s = .next ((({ s with pending := rest } : State).writeReg r v).respond (.write .okay)) := by
  rw [step_write hp, busWrite_mapped hreg hr]

/-- The W1C write, flag by flag (spec/10_state.md R30). -/
theorem w1c_eq (st : Status) (v : Word32) : st.w1c v = { st with
    done := if v.getLsbD 1 then false else st.done
    err := if v.getLsbD 2 then false else st.err
    errcode := if v.getLsbD 2 then 0 else st.errcode
    ovr := if v.getLsbD 4 then false else st.ovr } := by
  have hclear (b c : Bool) : (b && !c) = if c then false else b := by cases c <;> simp
  simp only [Status.w1c, hclear]

/-- A write to CTRL sets IE. -/
theorem step_write_ctrl {s : State} {off : Offset} {v : Word32} {rest : List Event}
    (hp : s.pending = .write off 32 v :: rest) (hoff : off.toNat = 0x004) :
    step s = .next { s with ie := v.getLsbD 0, pending := rest, resp := some (.write .okay) } :=
  step_write_mapped (r := .ctrl) hp (by rw [hoff]; rfl) rfl

/-- A write to STATUS clears flags. -/
theorem step_write_status {s : State} {off : Offset} {v : Word32} {rest : List Event}
    (hp : s.pending = .write off 32 v :: rest) (hoff : off.toNat = 0x00C) :
    step s = .next { s with status := s.status.w1c v, pending := rest, resp := some (.write .okay) } :=
  step_write_mapped (r := .status) hp (by rw [hoff]; rfl) rfl

/-- A write to PFLAGS sets both tags. -/
theorem step_write_pflags {s : State} {off : Offset} {v : Word32} {rest : List Event}
    (hp : s.pending = .write off 32 v :: rest) (hoff : off.toNat = 0x010) :
    step s = .next { s with
      p1inf := v.getLsbD 0, p2inf := v.getLsbD 1, pending := rest, resp := some (.write .okay) } :=
  step_write_mapped (r := .pflags) hp (by rw [hoff]; rfl) rfl

/-- The input registers are writable rows of the register map. -/
theorem inputMap_writable : ∀ row ∈ inputMap, row ∈ wideMap ∧ ∀ i, readOnlyReg (.word row.2 i) = false := by
  intro row hrow
  fin_cases hrow <;> exact ⟨by decide, fun _ => rfl⟩

/-- A write to word i of an input register sets that word in the register. -/
theorem step_write_word {s : State} {off : Offset} {v : Word32} {rest : List Event} {row : Nat × WideReg} {i : Nat}
    (hp : s.pending = .write off 32 v :: rest) (hrow : row ∈ inputMap) (hi : i < 8) (hoff : off.toNat = row.1 + 4 * i) :
    step s = .next { s.setInput row.2 (setWord (s.wide row.2) i v) with
      pending := rest, resp := some (.write .okay) } := by
  obtain ⟨hwide, hwrite⟩ := inputMap_writable row hrow
  rw [step_write_mapped hp (by rw [hoff, regAt_word row hwide i hi]) (hwrite i)]
  cases row.2 <;> rfl

/-- Settles O23: each clause is the write of one row of the register map. -/
theorem busWriteWritesTheRegister : Obligations.BusWriteWritesTheRegister := by
  intro s off v rest hp
  refine ⟨step_write_ctrl hp, fun hoff => ?_, step_write_pflags hp, fun row hrow i hi hoff =>
    ⟨setWord (s.wide row.2) i v, ?_, fun j _ hij => ?_, step_write_word hp hrow hi hoff⟩⟩
  · rw [step_write_status hp hoff, w1c_eq]
  · rw [getWord_setWord _ i hi, if_pos rfl]
  · rw [getWord_setWord _ j hi, if_neg hij]

/-- Settles O26: bit by bit. -/
theorem wordWriteChangesOnlyThatWord : Obligations.WordWriteChangesOnlyThatWord :=
  fun reg _ v hi b => setWord_getLsbD reg hi v b

/-! ### LD256 (R67, spec/30_encoding.md R88) -/

/-- The register after writing these words of v to it, in order. -/
def setWords (v : Word256) (is : List Nat) (reg : Word256) : Word256 :=
  is.foldl (fun x i => setWord x i (getWord v i)) reg

/-- No words. -/
@[simp] theorem setWords_nil (v reg : Word256) : setWords v [] reg = reg := rfl

/-- One word, then the others. -/
@[simp] theorem setWords_cons (v : Word256) (i : Nat) (is : List Nat) (reg : Word256) :
    setWords v (i :: is) reg = setWords v is (setWord reg i (getWord v i)) := rfl

/-- A word that is written is v's; any other is the register's. -/
theorem getWord_setWords (v reg : Word256) {is : List Nat} (his : ∀ i ∈ is, i < 8) (j : Nat) :
    getWord (setWords v is reg) j = if j ∈ is then getWord v j else getWord reg j := by
  induction is generalizing reg with
  | nil => simp
  | cons i is ih =>
    obtain ⟨hi, his'⟩ := List.forall_mem_cons.1 his
    rw [setWords_cons, ih _ his', getWord_setWord reg j hi]
    by_cases hj : j = i <;> simp [hj]

/-- All eight words make the register v. -/
theorem setWords_range (v reg : Word256) : setWords v (List.range 8) reg = v := by
  refine eq_of_getWord_eq fun j hj => ?_
  rw [getWord_setWords v reg (fun i => List.mem_range.1), if_pos (List.mem_range.2 hj)]

/-- The bus writes of these words of v to a register. -/
def wordWrites (base : Nat) (v : Word256) (is : List Nat) : List Event :=
  is.map fun i => wr (base + 4 * i) (getWord v i)

/-- `s` with an input register loaded by bus writes, and these events to come. -/
def State.loaded (s : State) (r : WideReg) (reg : Word256) (events : List Event) : State :=
  { s.setInput r reg with pending := events, resp := some (.write .okay) }

/-- The next word write. -/
theorem step_loaded (s : State) {row : Nat × WideReg} (v reg : Word256) (hrow : row ∈ inputMap) {i : Nat} (hi : i < 8)
    (is : List Nat) : step (s.loaded row.2 reg (wordWrites row.1 v (i :: is))) =
      .next (s.loaded row.2 (setWord reg i (getWord v i)) (wordWrites row.1 v is)) := by
  have hoff := toNat_wordOffset (inputMap_writable row hrow).1 hi
  rw [step_write_word (s := s.loaded row.2 reg (wordWrites row.1 v (i :: is))) rfl hrow hi hoff]
  fin_cases hrow <;> rfl

/-- A run over word writes of an input register sets its words and nothing else. -/
theorem run_loaded (s : State) {row : Nat × WideReg} (v reg : Word256) (hrow : row ∈ inputMap) (is : List Nat)
    (his : ∀ i ∈ is, i < 8) :
    Host.Core.run Sys2Proof.core is.length (s.loaded row.2 reg (wordWrites row.1 v is)) =
      .next (s.loaded row.2 (setWords v is reg) []) := by
  induction is generalizing reg with
  | nil => exact run_zero _
  | cons i is ih =>
    obtain ⟨hi, his'⟩ := List.forall_mem_cons.1 his
    exact (run_next is.length (step_loaded s v reg hrow hi is)).trans (ih _ his')

/-- The expansion of LD256 is the eight word writes in order. -/
theorem ld256_eq_wordWrites {row : Nat × WideReg} (v : Word256) (hrow : row ∈ inputMap) :
    ld256 row.2 v = wordWrites row.1 v (List.range 8) := by
  rw [ld256, baseOf_wideMap row (inputMap_writable row hrow).1]
  rfl

/-- Settles O27: the first write makes the register a loaded one, and the run sets the eight words. -/
theorem ld256LoadsTheRegister : Obligations.Ld256LoadsTheRegister := by
  intro s row v hrow
  have hoff := toNat_wordOffset (inputMap_writable row hrow).1 (i := 0) (by decide)
  have hfirst : step { s with pending := ld256 row.2 v } =
      .next (s.loaded row.2 (setWord (s.wide row.2) 0 (getWord v 0)) (wordWrites row.1 v [1, 2, 3, 4, 5, 6, 7])) := by
    rw [ld256_eq_wordWrites v hrow, step_write_word rfl hrow (by decide) hoff]
    fin_cases hrow <;> rfl
  have hrest := run_loaded s v (setWord (s.wide row.2) 0 (getWord v 0)) hrow [1, 2, 3, 4, 5, 6, 7] (by decide)
  have hwords : setWords v [1, 2, 3, 4, 5, 6, 7] (setWord (s.wide row.2) 0 (getWord v 0)) = v :=
    setWords_range v (s.wide row.2)
  rw [hwords] at hrest
  exact (run_next 7 hfirst).trans hrest

end Sys2Proof.Machine

/-! # Proofs: the interrupt (spec/60_exceptions.md R205) -/

namespace Sys2Proof.Machine

/-- A command's result that ends it sets DONE (spec/10_state.md R46, R47). -/
theorem conclude_done {s : State} {i : Instr} {r : Result} (h : (s.conclude i r).seq = .idle) :
    (s.conclude i r).status.done = true := by
  cases r with
  | ok o => rfl
  | raise c => rfl
  | needRng w => cases h

/-- irq is down where DONE is. -/
theorem irq_eq_false {t : State} (h : t.status.done = false) : t.irq = false := by
  rw [State.irq, h, Bool.and_false]

/-- irq is IE where DONE is up. -/
theorem irq_eq_ie {t : State} (h : t.status.done = true) : t.irq = t.ie := by
  rw [State.irq, h, Bool.and_true]

/-- A step of the running command that ends it raises irq where it is enabled. -/
theorem exec_irq {i : Instr} {s t : State} (hi : s.current = some i) (hexec : exec i s = .next t)
    (hidle : t.seq = .idle) : t.irq = s.ie := by
  rcases exec_concludes hexec with rfl | ⟨x, r, -, rfl⟩
  · simp [current_idle hidle] at hi
  · rw [irq_eq_ie (conclude_done hidle), conclude_ie]

/-- Settles O21: each event sets DONE or clears it, or clears IE. -/
theorem interruptLevelFollowsDone : Obligations.InterruptLevelFollowsDone := by
  refine ⟨fun s => Bool.and_eq_true_iff, fun i s t => exec_irq, fun s v rest hill hidle hp => ?_,
    fun s v rest hbit hp => ?_, fun s v rest hleg hidle hp => ?_, fun s v rest hbit hp => ?_, fun s rest hp => ?_⟩
  · exact ⟨_, step_cmd_illegal hp hidle hill, irq_eq_ie rfl⟩
  · refine ⟨_, step_write_status hp rfl, irq_eq_false ?_⟩
    rw [w1c_eq, if_pos hbit]
  · obtain ⟨i, hd⟩ := (decode_instr_iff_legalBits v).2 hleg
    refine ⟨_, step_cmd_idle hp hidle, irq_eq_false ?_⟩
    rw [accept_legal hd]
    rfl
  · refine ⟨_, step_write_ctrl hp rfl, ?_⟩
    rw [State.irq, hbit, Bool.false_and]
  · exact ⟨_, step_reset hp, rfl⟩

end Sys2Proof.Machine

/-! # Proofs: the randomness port and waiting (spec/60_exceptions.md R213, spec/70_reset_and_hazards.md R240) -/

namespace Sys2Proof.Machine

/-- A delivered word that is not requested does not exist. -/
theorem step_deliver_ignored {s : State} {w : Word256} {rest : List Event} (hp : s.pending = .deliver w :: rest)
    (hreq : s.rngReq = false) : step s = .next { s with pending := rest } := by
  have hreq' : ¬ ({ s with pending := rest } : State).rngReq = true := by simpa [State.rngReq] using hreq
  rw [step_cons hp, handleEvent, deliverWord, if_neg hreq']

/-- The attempt of a requested word takes it from the port. -/
theorem exec_delivered_port {s t : State} {w : Waiting} {x : Word256} (hseq : s.seq = .waitRng w)
    (hport : s.rngIn = some x) (h : exec w.instr s = .next t) : t.rngIn = none ∧ t.pending = s.pending := by
  obtain rfl := Host.Outcome.next.inj ((exec_delivered hseq hport).symm.trans h)
  exact ⟨conclude_rngIn .., conclude_pending ..⟩

/-- Settles O50: an unrequested word is dropped, a requested one is on the port for one attempt. -/
theorem deliveredWordsAreConsumedOnce : Obligations.DeliveredWordsAreConsumedOnce := by
  refine ⟨rngReq_iff, fun s w rest hp hreq => step_deliver_ignored hp hreq, fun s t w rest hp hreq hstep => ?_⟩
  obtain ⟨q, hq⟩ := (rngReq_iff s).1 hreq
  have hcur := current_waitRng hq
  rw [step_deliver_current hcur hreq hp] at hstep
  obtain ⟨hport, hpend⟩ := exec_delivered_port (s := { s with pending := rest, rngIn := some w }) hq rfl hstep
  exact ⟨hport, hpend, _, hcur, hstep⟩

/-- With no word on the port an idle or waiting block has nothing to do (R216, R240). -/
theorem sequencerTurn_still {s : State} (hport : s.rngIn = none) (h : s.seq = .idle ∨ s.rngReq = true) :
    sequencerTurn s = .next s := by
  rcases h with hidle | hreq
  · exact sequencerTurn_idle hidle
  · obtain ⟨w, hw⟩ := (rngReq_iff s).1 hreq
    rw [sequencerTurn_current (current_waitRng hw), exec_waiting hw hport]

/-- Settles O51: every other event leaves SEQ and BUSY. -/
theorem waitingLastsUntilAWordOrReset : Obligations.WaitingLastsUntilAWordOrReset := by
  intro s t hinv hreq hstep hends
  obtain ⟨w, hw⟩ := (rngReq_iff s).1 hreq
  have hbusy : s.status.busy = true := hinv.status.busyIff.2 (by simp [hw])
  have hport : s.rngIn = none := hinv.seq.portEmpty
  have hstays (hseq : t.seq = s.seq) (hb : t.status.busy = true) : False := by simp [hseq, hb] at hends
  cases hp : s.pending with
  | nil =>
    rw [step_nil hp, sequencerTurn_still hport (.inr hreq)] at hstep
    obtain rfl := Host.Outcome.next.inj hstep
    exact (hstays rfl hbusy).elim
  | cons e rest =>
    rw [step_cons hp] at hstep
    cases e with
    | read off width =>
      obtain rfl := Host.Outcome.next.inj hstep
      exact (hstays rfl hbusy).elim
    | write off width v =>
      obtain rfl := Host.Outcome.next.inj hstep
      obtain ⟨hseq, -, -, hb⟩ := busWrite_busy (s := { s with pending := rest }) off width v hbusy
      exact (hstays hseq hb).elim
    | deliver x => exact .inl ⟨x, rest, rfl⟩
    | tick =>
      rw [handleEvent, sequencerTurn_still (s := { s with pending := rest }) hport (.inr hreq)] at hstep
      obtain rfl := Host.Outcome.next.inj hstep
      exact (hstays rfl hbusy).elim
    | reset => exact .inr ⟨rest, rfl⟩

/-- Settles O52: one step gives the same state, so any number does. -/
theorem nothingPendingNothingMoves : Obligations.NothingPendingNothingMoves := by
  intro s hinv hp hstill k
  have hstep : step s = .next s := by rw [step_nil hp, sequencerTurn_still hinv.seq.portEmpty hstill]
  induction k with
  | zero => exact run_zero s
  | succ k ih => exact (run_next k hstep).trans ih

end Sys2Proof.Machine

/-! # Proofs: the platform (spec/60_exceptions.md R214) -/

namespace Sys2Proof.Machine

/-- An address outside the window reaches nothing of the block (spec/20_memory.md R60). -/
theorem windowOffset_outside {base addr : Nat} (h : addr < base ∨ base + 4096 ≤ addr) : windowOffset base addr = none :=
  if_neg (by omega)

/-- Settles O53: a step or a word changes the list of instances at its own index. -/
theorem instancesAreIndependent : Obligations.InstancesAreIndependent := by
  intro P i j hij
  refine ⟨List.getElem?_modify_ne _ _ hij, fun w => List.getElem?_modify_ne _ _ hij, fun p addr width v h => ?_⟩
  rw [Placed.hostWrite, Placed.hostRead, windowOffset_outside h]
  exact ⟨rfl, rfl⟩

end Sys2Proof.Machine

/-! # Proofs: what the commands commit and how they fail (spec/40 to spec/45) -/

namespace Sys2Proof.Machine

/-! ### Commits and fails (spec/10_state.md R46, R47) -/

/-- A commit of RES0 alone. -/
theorem committed_res0 (s : State) (x : Word256) :
    Committed s (s.commit { res0 := some x }) x s.res1 s.rx s.ry s.rinf s.status.vok := rfl

/-- A commit of a point goes through PointOut (R26). -/
theorem committedPoint_commit (s : State) (R : Point) : CommittedPoint s (s.commit (pointOuts R)) R := by
  cases R <;> rfl

/-- Drawing registers writes output registers and the counter only. -/
theorem drawRegs_eq (s : State) (regs : List OutReg) : s.drawRegs regs = { s with
    res0 := (s.drawRegs regs).res0, res1 := (s.drawRegs regs).res1
    rx := (s.drawRegs regs).rx, ry := (s.drawRegs regs).ry, rinf := (s.drawRegs regs).rinf
    draws := (s.drawRegs regs).draws } := by
  induction regs generalizing s with
  | nil => rfl
  | cons r regs ih =>
    refine (ih (s.drawReg r)).trans ?_
    cases r <;> rfl

/-- The error completion leaves the drawn registers open and keeps the others. -/
theorem failed_fail (s : State) (regs : List OutReg) (c : ErrCode) : Failed s (s.fail regs c) regs c.code := by
  have hres0 := ite_eq_left_iff.2 fun h => (drawRegs_res0 s regs h).symm
  have hres1 := ite_eq_left_iff.2 fun h => (drawRegs_res1 s regs h).symm
  have hrx := ite_eq_left_iff.2 fun h => (drawRegs_rx s regs h).symm
  have hry := ite_eq_left_iff.2 fun h => (drawRegs_ry s regs h).symm
  have hrinf := ite_eq_left_iff.2 fun h => (drawRegs_rinf s regs h).symm
  unfold Failed
  simp only [fail_res0, fail_res1, fail_rx, fail_ry, fail_rinf, hres0, hres1, hrx, hry, hrinf]
  rw [State.fail, drawRegs_eq]
  rfl

/-! ### INV and EXP (spec/40_field_arithmetic.md) -/

/-- Inv answers the unique inverse (R102). -/
theorem isInverse_of_invMod {a m x : Nat} (hm : m.Prime) (h : invMod a m = .ok x) : IsInverse a m x := by
  obtain ⟨hpos, hlt, hmul⟩ := invMod_spec hm h
  exact ⟨hpos, hlt, hmul, fun y _ hy hy' => inverse_unique hy hlt hy' hmul⟩

/-- A value below a modulus that fits a register goes through it unchanged. -/
theorem toNat_ofNat_of_lt {x m : Nat} (hx : x < m) (hm : m < 2 ^ 256) : (BitVec.ofNat 256 x).toNat = x :=
  (fitsRegister_iff x).2 (hx.trans hm)

/-- INV on a value that is not a multiple of its modulus. -/
theorem conclude_beginInv_ok (s : State) (i : Instr) {m : Nat} (hm : m.Prime) (hlt : m < 2 ^ 256)
    (h : s.snap.opa.toNat % m ≠ 0) : ∃ x, IsInverse s.snap.opa.toNat m x ∧ (BitVec.ofNat 256 x).toNat = x ∧
      s.conclude i (beginInv m s.snap) = s.commit { res0 := some (BitVec.ofNat 256 x) } := by
  have hx := invMod_ok h
  obtain ⟨hpos, hxm, hunique⟩ := isInverse_of_invMod hm hx
  refine ⟨_, ⟨hpos, hxm, hunique⟩, toNat_ofNat_of_lt hxm hlt, ?_⟩
  rw [beginInv, hx]
  rfl

/-- INV on a multiple of its modulus. -/
theorem conclude_beginInv_raise (s : State) (i : Instr) {m : Nat} (h : s.snap.opa.toNat % m = 0) :
    s.conclude i (beginInv m s.snap) = s.fail i.outRegs .invalidInverse := by
  rw [beginInv, (invMod_error_iff _ _ _).2 ⟨h, rfl⟩]
  rfl

/-- n fits a register. -/
theorem dpN_lt : dpN < 2 ^ 256 := dpN_lt_dpP.trans dpP_lt

/-- Settles O28: Inv answers, for both prime moduli. -/
theorem invCommitsTheUniqueInverse : Obligations.InvCommitsTheUniqueInverse := by
  refine fun s => ⟨fun h => ?_, fun h => ?_⟩
  · obtain ⟨x, hinv, hx, hcommit⟩ := conclude_beginInv_ok s .invP dpP_prime dpP_lt h
    exact ⟨x, _, congrArg Host.Outcome.next hcommit, hinv, committed_res0 s _, hx⟩
  · obtain ⟨x, hinv, hx, hcommit⟩ := conclude_beginInv_ok s .invN dpN_prime dpN_lt h
    exact ⟨x, _, congrArg Host.Outcome.next hcommit, hinv, committed_res0 s _, hx⟩

/-- Settles O29: Inv raises, for both moduli. -/
theorem invOfZeroFailsWithCodeTwo : Obligations.InvOfZeroFailsWithCodeTwo := fun s =>
  ⟨fun h => ⟨_, congrArg Host.Outcome.next (conclude_beginInv_raise s .invP h), failed_fail s _ _⟩,
    fun h => ⟨_, congrArg Host.Outcome.next (conclude_beginInv_raise s .invN h), failed_fail s _ _⟩⟩

/-- EXP commits the power. -/
theorem conclude_beginExp (s : State) (i : Instr) {m : Nat} (hm : 1 < m) : s.conclude i (beginExp m s.snap) =
    s.commit { res0 := some (BitVec.ofNat 256 (s.snap.opa.toNat ^ s.snap.opb.toNat % m)) } := by
  rw [beginExp, expMod_eq _ _ m hm]
  rfl

/-- Settles O30: square and multiply computes the power, for both moduli. -/
theorem expCommitsThePower : Obligations.ExpCommitsThePower := fun s =>
  ⟨⟨_, congrArg Host.Outcome.next (conclude_beginExp s .expP one_lt_dpP), committed_res0 s _,
      toNat_ofNat_of_lt (Nat.mod_lt _ dpP_prime.pos) dpP_lt⟩,
    ⟨_, congrArg Host.Outcome.next (conclude_beginExp s .expN one_lt_dpN), committed_res0 s _,
      toNat_ofNat_mod_dpN _⟩⟩

/-! ### PADD, PDBL and SMUL (spec/41_point_ops.md, spec/42_scalar_multiplier.md) -/

/-- A point command whose point is computed commits it. -/
theorem conclude_ofExcept_ok (s : State) (i : Instr) {r : Except ErrCode Point} {R : Point} (h : r = .ok R) :
    s.conclude i (.ofExcept r pointOuts) = s.commit (pointOuts R) := by rw [h]; rfl

/-- A point command whose point is not computed fails. -/
theorem conclude_ofExcept_error (s : State) (i : Instr) {r : Except ErrCode Point} {c : ErrCode} (h : r = .error c) :
    s.conclude i (.ofExcept r pointOuts) = s.fail i.outRegs c := by rw [h]; rfl

/-- Settles O35: AddPoints answers on checked points. -/
theorem pointCommandsCommitTheSum : Obligations.PointCommandsCommitTheSum := by
  have hf : Fact (Nat.Prime dpP) := ⟨dpP_prime⟩
  intro s h1
  refine ⟨fun h2 => ?_, ?_⟩
  · obtain ⟨R, hR, -, -⟩ := addPoints_toGroup h1 h2
    exact ⟨R, _, hR, congrArg Host.Outcome.next (conclude_ofExcept_ok s .padd hR), committedPoint_commit s R⟩
  · obtain ⟨R, hR, -, -⟩ := addPoints_toGroup h1 h1
    exact ⟨R, _, hR, congrArg Host.Outcome.next (conclude_ofExcept_ok s .pdbl hR), committedPoint_commit s R⟩

/-- Mul checks its point before it looks at k. -/
theorem mulPoint_off (k : Nat) {Q : Point} (h : onCurve Q = false) : mulPoint k Q = .error .pointNotOnCurve :=
  if_neg (Bool.eq_false_iff.1 h)

/-- Settles O36: AddPoints and Mul raise on unchecked points. -/
theorem offCurvePointsFailWithCodeOne : Obligations.OffCurvePointsFailWithCodeOne := by
  refine fun s => ⟨fun h => ?_, fun h => ⟨?_, ?_⟩⟩
  · exact ⟨_, congrArg Host.Outcome.next (conclude_ofExcept_error s .padd (addPoints_off h)), failed_fail s _ _⟩
  · have hdouble : doublePoint s.snap.p1 = .error .pointNotOnCurve := addPoints_off (by simp [h])
    exact ⟨_, congrArg Host.Outcome.next (conclude_ofExcept_error s .pdbl hdouble), failed_fail s _ _⟩
  · exact ⟨_, congrArg Host.Outcome.next (conclude_ofExcept_error s .smul (mulPoint_off _ h)), failed_fail s _ _⟩

/-- Settles O37: Mul answers on a checked point, and its answer is the repeated sum. -/
theorem smulCommitsTheRepeatedSum : Obligations.SmulCommitsTheRepeatedSum := by
  have hf : Fact (Nat.Prime dpP) := ⟨dpP_prime⟩
  intro s h
  obtain ⟨R, hR, hRc, -⟩ := mulPoint_toGroup s.snap.opa.toNat h
  exact ⟨R, _, (mulPoint_eq_repeatAdd h _).symm.trans hR, hRc,
    congrArg Host.Outcome.next (conclude_ofExcept_ok s .smul hR), committedPoint_commit s R⟩

/-! ### Waiting (spec/10_state.md R45) -/

/-- Waiting on with the same context raises RNGWAIT and changes nothing else. -/
theorem await_same {s : State} {w : Waiting} (h : s.seq = .waitRng w) :
    s.await w = { s with status := { s.status with rngwait := true } } := by
  rw [State.await, ← h]

/-- A delivered word whose attempt waits on is consumed without a trace. -/
theorem exec_delivered_waits {s : State} {w : Waiting} {x : Word256} (hseq : s.seq = .waitRng w)
    (hport : s.rngIn = some x) (h : attemptOf w x = .needRng w) :
    exec w.instr s = .next { s with rngIn := none, status := { s.status with rngwait := true } } := by
  rw [exec_delivered hseq hport, h]
  exact congrArg _ (await_same (s := { s with rngIn := none }) hseq)

/-- A delivered word whose attempt answers ends the command with a commit. -/
theorem exec_delivered_commits {s : State} {w : Waiting} {x : Word256} {o : Outs} (hseq : s.seq = .waitRng w)
    (hport : s.rngIn = some x) (h : attemptOf w x = .ok o) :
    exec w.instr s = .next (({ s with rngIn := none } : State).commit o) := by
  rw [exec_delivered hseq hport, h]
  rfl

/-- An attempt that leaves the command waiting leaves one state, whatever the word (R51). -/
theorem exec_waits_on {s t : State} {w : Waiting} {x : Word256} (hseq : s.seq = .waitRng w)
    (h : exec w.instr { s with rngIn := some x } = .next t) (hreq : t.rngReq = true) :
    t = { s with rngIn := none, status := { s.status with rngwait := true } } := by
  have hseq' : ({ s with rngIn := some x } : State).seq = .waitRng w := hseq
  rcases attemptOf_cases w x with hwait | ⟨o, hok, -⟩
  · exact Host.Outcome.next.inj (h.symm.trans (exec_delivered_waits hseq' rfl hwait))
  · obtain rfl := Host.Outcome.next.inj (h.symm.trans (exec_delivered_commits hseq' rfl hok))
    cases hreq

/-- Settles O45: the state a discarded word leaves does not name the word. -/
theorem failedAttemptsLeaveNoTrace : Obligations.FailedAttemptsLeaveNoTrace := by
  intro i s t t' w w' hreq hi h h' hwaits hwaits'
  obtain ⟨q, hq⟩ := (rngReq_iff s).1 hreq
  obtain rfl := Option.some.inj ((current_waitRng hq).symm.trans hi)
  obtain rfl := exec_waits_on hq h hwaits
  exact ⟨(exec_waits_on hq h' hwaits').symm, rfl, rfl⟩

/-! ### GENPRIV, DERIVE and KEYPAIR (spec/43_key_pair_gen.md) -/

/-- Settles O39: the attempt is the range test. -/
theorem genprivCommitsTheAcceptedWord : Obligations.GenprivCommitsTheAcceptedWord := by
  intro s w hseq hport
  exact ⟨fun h => ⟨_, exec_delivered_commits hseq hport (if_pos ((scalarInRange_iff _).2 h)), rfl⟩,
    fun h => exec_delivered_waits hseq hport (if_neg (mt (scalarInRange_iff _).1 h))⟩

/-- Settles O40: a scalar in range has a finite multiple of G; any other raises. -/
theorem deriveCommitsThePublicKey : Obligations.DeriveCommitsThePublicKey := by
  intro s
  refine ⟨fun h => ?_, fun h => ?_⟩
  · have hd := (scalarInRange_iff _).2 h
    obtain ⟨x, y, hP, hc⟩ := mulPoint_baseG hd
    refine ⟨x, y, _, hP, hc, ?_, committedPoint_commit s (.fin x y)⟩
    rw [exec, execDerive, beginDerive, if_pos hd, conclude_ofExcept_ok s .derive hP]
  · refine ⟨_, ?_, failed_fail s _ .operandOutOfRange⟩
    rw [exec, execDerive, beginDerive, if_neg (mt (scalarInRange_iff _).1 h)]
    rfl

/-- Settles O41: an accepted word is committed with its finite multiple of G. -/
theorem keypairCommitsAMatchingPair : Obligations.KeypairCommitsAMatchingPair := by
  intro s w hseq hport
  refine ⟨fun h => ?_, fun h => exec_delivered_waits hseq hport (if_neg (mt (scalarInRange_iff _).1 h))⟩
  obtain ⟨x, y, hP, hc, hok⟩ := attemptKeypair_accept ((scalarInRange_iff _).2 h)
  exact ⟨x, y, _, hP, hc, exec_delivered_commits hseq hport hok, rfl⟩

/-- Settles O42: the begin steps of the three, and SIGN's range test of its key. -/
theorem randomCommandsBeginByWaiting : Obligations.RandomCommandsBeginByWaiting := by
  intro s
  refine ⟨fun h => exec_run h, fun h => exec_run h, fun h h1 hn => ?_, fun h hbad => ?_⟩
  · rw [exec_run h, beginOf, beginSign, if_pos ((scalarInRange_iff _).2 ⟨h1, hn⟩)]
    rfl
  · refine ⟨s.fail [.res0, .res1] .operandOutOfRange, ?_, failed_fail s _ _, rfl⟩
    rw [exec_run h, beginOf, beginSign, if_neg (mt (scalarInRange_iff _).1 hbad)]
    rfl

/-! ### SIGN (spec/44_ecdsa_signer.md R162) -/

/-- The attempt with an accepted nonce k: r is from k·G and s from the inverse of k. -/
theorem attemptSign_accept (z d : Word256) {w : Word256} (h : scalarInRange w.toNat = true) : ∃ xP yP kInv,
    mulPoint w.toNat baseG = .ok (.fin xP yP) ∧ IsInverse w.toNat dpN kInv ∧
    (xP % dpN = 0 ∨ kInv * ((z.toNat + xP % dpN * d.toNat) % dpN) % dpN = 0 →
      attemptSign z d w = .needRng (.sign z d)) ∧
    (xP % dpN ≠ 0 → kInv * ((z.toNat + xP % dpN * d.toNat) % dpN) % dpN ≠ 0 → attemptSign z d w = .ok
      { res0 := some (BitVec.ofNat 256 (xP % dpN))
        res1 := some (BitVec.ofNat 256 (kInv * ((z.toNat + xP % dpN * d.toNat) % dpN) % dpN)) }) := by
  obtain ⟨xP, yP, kInv, hP, -, hi, hsign⟩ := signWith_spec z.toNat d.toNat h
  refine ⟨xP, yP, kInv, hP, isInverse_of_invMod dpN_prime hi, fun h0 => ?_, fun hr hs => ?_⟩
  · rcases h0 with hr | hs
    · rw [attemptSign, if_pos h, hsign, if_pos hr]
    · rw [attemptSign, if_pos h, hsign, if_pos hs, ite_self]
  · rw [attemptSign, if_pos h, hsign, if_neg hr, if_neg hs]

/-- Settles O43: a rejected word, r = 0 and s = 0 wait on; otherwise r and s are committed. -/
theorem signAttemptCommitsTheSignature : Obligations.SignAttemptCommitsTheSignature := by
  intro s z d w hseq hport
  refine ⟨fun h => exec_delivered_waits hseq hport (if_neg (mt (scalarInRange_iff _).1 h)), fun h => ?_⟩
  obtain ⟨xP, yP, kInv, hP, hinv, hwait, hok⟩ := attemptSign_accept z d ((scalarInRange_iff _).2 h)
  exact ⟨xP, yP, kInv, hP, hinv, fun h0 => exec_delivered_waits hseq hport (hwait h0),
    fun hr hs => ⟨_, exec_delivered_commits hseq hport (hok hr hs), rfl⟩⟩

/-- Settles O44: what `sign_committed` says of the range. -/
theorem committedSignaturesAreInRange : Obligations.CommittedSignaturesAreInRange := by
  intro s t z d hseq hexec hidle
  obtain ⟨-, -, -, -, -, -, -, -, hr, hs⟩ := sign_committed hseq hexec hidle
  obtain ⟨hr1, hrn⟩ := (scalarInRange_iff _).1 hr
  obtain ⟨hs1, hsn⟩ := (scalarInRange_iff _).1 hs
  exact ⟨hr1, hrn, hs1, hsn⟩

/-! ### VERIFY (spec/45_ecdsa_verifier.md R171) -/

/-- Steps 4 and 5 are the verdict. -/
theorem verifyMatch_eq_verdict (r : Nat) (W : Point) : verifyMatch r W = verdict r W := by cases W <;> rfl

/-- Settles O46: a malformed input fails step 1; otherwise the point of steps 2 and 3 exists. -/
theorem verifyCommitsTheVerdict : Obligations.VerifyCommitsTheVerdict := by
  refine fun s => ⟨fun hbad => ?_, fun hfin hcurve hr1 hrn hs1 hsn => ?_⟩
  · rcases exec_verify_cases s with ⟨-, hexec⟩ | ⟨hvalid, -⟩
    · exact ⟨_, hexec, rfl⟩
    · exact absurd hvalid (not_signatureValid_of_malformed hbad)
  · obtain ⟨w, U1, U2, W, hw, h1, h2, hW, -, -, hpoint⟩ :=
      verifyPoint_spec s.snap.opa.toNat s.snap.opb.toNat ((scalarInRange_iff _).2 ⟨hs1, hsn⟩) hcurve
    have hvalid := (signatureValid_iff _ _ _).2 ⟨hfin, hcurve, ⟨hr1, hrn⟩, ⟨hs1, hsn⟩⟩
    refine ⟨w, U1, U2, W, _, isInverse_of_invMod dpN_prime hw, h1, h2, hW, exec_verify_valid hvalid hpoint, ?_⟩
    rw [verifyMatch_eq_verdict]
    rfl

end Sys2Proof.Machine
